-- ==== Sys2Proof/Word.lean ====
section
/-! DEFINITION. The two word types of the machine (00_scope.md R6, R8): 8-bit data, 16-bit addresses. -/

namespace Sys2Proof

/-- An 8-bit value: a register, a memory byte, an opcode, the flags byte (R6). -/
abbrev Byte := BitVec 8

/-- A 16-bit value: an address, pc, sp, ix, iy, an immediate word (R6). -/
abbrev Word := BitVec 16

end Sys2Proof
end

