-- ==== Sys2Proof/Config.lean ====
section
/-! DEFINITION. The two named parameters of 00_scope.md R7. Their defaults are in Machine/ResetValues.lean. -/

namespace Sys2Proof

/-- `WORD_ORDER` (R7, 92_eei_decisions.md D1): the byte order of every 16-bit word held in memory. -/
inductive WordOrder where
  | little  -- low byte at the lower address
  | big     -- high byte at the lower address
  deriving DecidableEq, Repr

/-- `HL_ADDRESS_MODE` (R7, 92_eei_decisions.md D3): how LD r,(HL) forms its address. -/
inductive HlAddressMode where
  | pairRead  -- the value of register pair HL: the memory word at H:L
  | direct    -- H:L itself
  deriving DecidableEq, Repr

/-- The machine's configuration: fixed for a machine, carried in State, written by no step (log 3).
A statement over every state is a statement for all four configurations, as R7 asks. -/
structure Config where
  wordOrder     : WordOrder
  hlAddressMode : HlAddressMode
  deriving DecidableEq, Repr

end Sys2Proof
end

