-- ==== Sys2Proof/Syntax.lean ====
section
/-! DEFINITION. Registers, pairs, the instructions of the opcode table, and the ROM's output word. -/

namespace Sys2Proof

/-- The eight architectural 8-bit registers, in selector order (10_state.md R20). -/
inductive Reg where
  | b | c | d | e | h | l | f | a
  deriving DecidableEq, Repr

/-- The four register pairs, in selector order (10_state.md R23). -/
inductive RegPair where
  | bc | de | hl | sp
  deriving DecidableEq, Repr

/-- One entry of the decoder ROM as the tagged variant R80 allows: the kind of instruction with the operand
selectors "captured once, at decode time" (R76, R101). Immediates are no part of it: executing the instruction
consumes them through pc (40_cycle.md R102). One constructor per form of spec/opcode_table.json. -/
inductive Instr where
  | nop                      -- R120
  | ldRHl   (dst : Reg)      -- LD r,(HL), R130
  | ldRR    (dst src : Reg)  -- LD r,r', R131
  | ldRN    (dst : Reg)      -- LD r,n, R132
  | ldRrNn  (p : RegPair)    -- LD rr,nn, R150
  | addAR   (src : Reg)      -- ADD A,r, R179
  | jpNn                     -- JP nn, R190
  | illegal (op : Byte)      -- any of the 170 other opcodes, R231
  deriving DecidableEq, Repr

/-- The `kind` field of the ROM's output word (30_encoding.md R80). -/
inductive InstrKind where
  | NOP | LD_R_HL | LD_R_R | LD_R_N | LD_RR_NN | ADD_A_R | JP_NN | ILLEGAL
  deriving DecidableEq, Repr

/-- Disassembly text, as a list of characters so that the kernel can compare it. -/
abbrev Text := List Char

/-- One piece of a disassembly template: fixed text, or one of the three capability operations (46_disassembly.md
R200, R205). -/
inductive TextPart where
  | lit (t : Text)
  | ind    -- render_indirect_address()
  | imm8   -- render_immediate_byte()
  | imm16  -- render_immediate_word()
  deriving DecidableEq, Repr

/-- The ROM's output word (30_encoding.md R80, `DecodedInstr`). -/
structure DecodedInstr where
  kind : InstrKind
  d    : BitVec 3
  s    : BitVec 3
  p    : BitVec 2
  len  : Nat
  op   : Byte
  text : List TextPart
  deriving DecidableEq, Repr

/-- An instruction as it stands in memory: the ROM entry its opcode selects and the operand bytes after the
opcode, lowest address first (30_encoding.md R70). -/
structure Encoded where
  instr    : Instr
  operands : List Byte
  deriving DecidableEq, Repr

/-- Why a list of bytes holds no whole instruction. An opcode byte by itself is never refused (R76, R78). -/
inductive DecodeReject where
  | noBytes                                  -- no opcode byte
  | truncated (i : Instr) (missing : Nat)    -- the opcode is there, `missing` operand bytes are not
  deriving DecidableEq, Repr

end Sys2Proof
end

