-- ==== Sys2Proof/WellFormed.lean ====
section
/-! DEFINITION. Which terms of `Instr` are entries of the decoder ROM. -/

namespace Sys2Proof

/-- The illegal opcodes below 0x40, as R78 lists them (30_encoding.md). -/
def illegalBelow40 : List Nat :=
  [0x02, 0x03, 0x04, 0x05, 0x07, 0x08, 0x09, 0x0A, 0x0B, 0x0C, 0x0D, 0x0F] ++
  [0x10, 0x12, 0x13, 0x14, 0x15, 0x17, 0x18, 0x19, 0x1A, 0x1B, 0x1C, 0x1D, 0x1F] ++
  [0x20, 0x22, 0x23, 0x24, 0x25, 0x27, 0x28, 0x29, 0x2A, 0x2B, 0x2C, 0x2D, 0x2F] ++
  [0x30, 0x32, 0x33, 0x34, 0x35, 0x37, 0x38, 0x39, 0x3A, 0x3B, 0x3C, 0x3D, 0x3F]

/-- The 170 illegal opcodes, as R78 lists them: those below 0x40, 88-BF, C0 C1 C2 and C4-FF. -/
def isIllegalOpcode (op : Byte) : Bool :=
  illegalBelow40.contains op.toNat
    || (decide (0x88 ≤ op.toNat) && decide (op.toNat ≤ 0xBF))
    || [0xC0, 0xC1, 0xC2].contains op.toNat
    || decide (0xC4 ≤ op.toNat)

/-- `i` is an entry of the ROM. Two forms have a check: F is never the source of LD r,r' (R72, R131), and `illegal`
carries one of the opcodes R78 lists. Every other operand value is valid (R72, R73). -/
def Instr.wf : Instr → Bool
  | .nop => true
  | .ldRHl _ => true
  | .ldRR _ src => decide (src ≠ .f)
  | .ldRN _ => true
  | .ldRrNn _ => true
  | .addAR _ => true
  | .jpNn => true
  | .illegal op => isIllegalOpcode op

end Sys2Proof
end

