-- ==== Sys2Proof/Decode.lean ====
section
/-! DEFINITION. The `instruction_decoder` block (30_encoding.md): selectors, decode, lengths, the disassembly
templates, the 256-entry ROM; then the encoder, written from the field layout of R71. -/

namespace Sys2Proof

/-! ## Selectors -/

/-- The register a 3-bit selector names (10_state.md R20, 30_encoding.md R72). -/
def Reg.ofSel (sel : BitVec 3) : Reg :=
  match sel.toNat with
  | 0 => .b
  | 1 => .c
  | 2 => .d
  | 3 => .e
  | 4 => .h
  | 5 => .l
  | 6 => .f
  | _ => .a

/-- The selector of a register (R20). -/
def Reg.sel : Reg → BitVec 3
  | .b => 0b000#3
  | .c => 0b001#3
  | .d => 0b010#3
  | .e => 0b011#3
  | .h => 0b100#3
  | .l => 0b101#3
  | .f => 0b110#3
  | .a => 0b111#3

/-- The pair a 2-bit selector names (10_state.md R23, 30_encoding.md R73). -/
def RegPair.ofSel (sel : BitVec 2) : RegPair :=
  match sel.toNat with
  | 0 => .bc
  | 1 => .de
  | 2 => .hl
  | _ => .sp

/-- The selector of a pair (R23). -/
def RegPair.sel : RegPair → BitVec 2
  | .bc => 0b00#2
  | .de => 0b01#2
  | .hl => 0b10#2
  | .sp => 0b11#2

/-! ## Decode -/

/-- `op[lo+n-1 : lo]` (00_scope.md R8). -/
def opField (op : Byte) (lo n : Nat) : BitVec n := op.extractLsb' lo n

/-- `decode(op)`: the cases of R75, in its order, first match wins. Total. -/
def decode (op : Byte) : Instr :=
  if op = 0b00000000#8 then .nop
  else if opField op 6 2 = 0b01#2 ∧ opField op 0 3 = 0b110#3 then .ldRHl (Reg.ofSel (opField op 3 3))
  else if opField op 6 2 = 0b01#2 then .ldRR (Reg.ofSel (opField op 3 3)) (Reg.ofSel (opField op 0 3))
  else if opField op 6 2 = 0b00#2 ∧ opField op 0 3 = 0b110#3 then .ldRN (Reg.ofSel (opField op 3 3))
  else if opField op 6 2 = 0b00#2 ∧ opField op 0 4 = 0b0001#4 then .ldRrNn (RegPair.ofSel (opField op 4 2))
  else if opField op 3 5 = 0b10000#5 then .addAR (Reg.ofSel (opField op 0 3))
  else if op = 0b11000011#8 then .jpNn
  else .illegal op

/-- How many operand bytes follow the opcode (formats O, OI8 and OI16 of R70). -/
def Instr.operandCount : Instr → Nat
  | .nop => 0
  | .ldRHl _ => 0
  | .ldRR _ _ => 0
  | .ldRN _ => 1
  | .ldRrNn _ => 2
  | .addAR _ => 0
  | .jpNn => 2
  | .illegal _ => 0

/-- The instruction's length in bytes (R70). -/
def Instr.length (i : Instr) : Nat := i.operandCount + 1

/-- The kind of an instruction (R80). -/
def Instr.kind : Instr → InstrKind
  | .nop => .NOP
  | .ldRHl _ => .LD_R_HL
  | .ldRR _ _ => .LD_R_R
  | .ldRN _ => .LD_R_N
  | .ldRrNn _ => .LD_RR_NN
  | .addAR _ => .ADD_A_R
  | .jpNn => .JP_NN
  | .illegal _ => .ILLEGAL

/-- R75's second description of decode: (mask, match) pairs in the same order, then everything else. -/
def maskMatchRows : List (Byte × Byte × InstrKind) :=
  [(0xFF#8, 0x00#8, .NOP), (0xC7#8, 0x46#8, .LD_R_HL), (0xC0#8, 0x40#8, .LD_R_R), (0xC7#8, 0x06#8, .LD_R_N),
   (0xCF#8, 0x01#8, .LD_RR_NN), (0xF8#8, 0x80#8, .ADD_A_R), (0xFF#8, 0xC3#8, .JP_NN)]

/-- The kind of the first row that matches `op`; ILLEGAL where none does. -/
def firstMatch : List (Byte × Byte × InstrKind) → Byte → InstrKind
  | [], _ => .ILLEGAL
  | (mask, pat, k) :: rows, op => if op &&& mask = pat then k else firstMatch rows op

/-- An instruction with the operand bytes its length asks for (R70). -/
def Encoded.wf (e : Encoded) : Bool :=
  e.instr.wf && decide (e.operands.length = e.instr.operandCount)

/-- Read one instruction from the front of a list of bytes, and give the rest back. The opcode alone tells how many
operand bytes belong to it (R70); a list too short for that is rejected by name. -/
def decodeBytes : List Byte → Except DecodeReject (Encoded × List Byte)
  | [] => .error .noBytes
  | op :: rest =>
    let i := decode op
    if i.operandCount ≤ rest.length then
      .ok (⟨i, rest.take i.operandCount⟩, rest.drop i.operandCount)
    else
      .error (.truncated i (i.operandCount - rest.length))

/-! ## Disassembly templates (46_disassembly.md) -/

/-- Register names are lowercase (R203, R20). -/
def Reg.name : Reg → Text
  | .b => ['b']
  | .c => ['c']
  | .d => ['d']
  | .e => ['e']
  | .h => ['h']
  | .l => ['l']
  | .f => ['f']
  | .a => ['a']

/-- Pair names are lowercase (R203, R23). -/
def RegPair.name : RegPair → Text
  | .bc => ['b', 'c']
  | .de => ['d', 'e']
  | .hl => ['h', 'l']
  | .sp => ['s', 'p']

/-- The template of each form (R205). The texts the source does not give are the spec's decision D14 (log 18). -/
def Instr.template : Instr → List TextPart
  | .nop => [.lit ['n', 'o', 'p']]
  | .ldRHl dst => [.lit ['l', 'd', ' '], .lit dst.name, .lit [',', ' '], .ind]
  | .ldRR dst src => [.lit ['l', 'd', ' '], .lit dst.name, .lit [',', ' '], .lit src.name]
  | .ldRN dst => [.lit ['l', 'd', ' '], .lit dst.name, .lit [',', ' '], .imm8]
  | .ldRrNn p => [.lit ['l', 'd', ' '], .lit p.name, .lit [',', ' '], .imm16]
  | .addAR src => [.lit ['a', 'd', 'd', ' ', 'a', ',', ' '], .lit src.name]
  | .jpNn => [.lit ['j', 'p', ' '], .imm16]
  | .illegal _ => [.lit ['i', 'l', 'l', 'e', 'g', 'a', 'l']]

/-! ## Encode, from the field layout of R71 -/

/-- The opcode byte of an instruction: the pattern of its form with its selectors in the field bits (R71). -/
def encode : Instr → Byte
  | .nop => 0b00000000#8
  | .ldRHl dst => 0b01#2 ++ dst.sel ++ 0b110#3
  | .ldRR dst src => 0b01#2 ++ dst.sel ++ src.sel
  | .ldRN dst => 0b00#2 ++ dst.sel ++ 0b110#3
  | .ldRrNn p => 0b00#2 ++ p.sel ++ 0b0001#4
  | .addAR src => 0b10000#5 ++ src.sel
  | .jpNn => 0b11000011#8
  | .illegal op => op

/-- The bytes of an instruction by ascending address: opcode, then operand bytes (R70). -/
def encodeBytes (e : Encoded) : List Byte := encode e.instr :: e.operands

/-! ## The ROM -/

/-- One ROM entry as the output word of R80. Unused selector fields are 0. -/
def romWord (i : Instr) : DecodedInstr where
  kind := i.kind
  d := match i with
    | .ldRHl dst => dst.sel
    | .ldRR dst _ => dst.sel
    | .ldRN dst => dst.sel
    | .nop | .ldRrNn _ | .addAR _ | .jpNn | .illegal _ => 0b000#3
  s := match i with
    | .ldRR _ src => src.sel
    | .addAR src => src.sel
    | .nop | .ldRHl _ | .ldRN _ | .ldRrNn _ | .jpNn | .illegal _ => 0b000#3
  p := match i with
    | .ldRrNn p => p.sel
    | .nop | .ldRHl _ | .ldRR _ _ | .ldRN _ | .addAR _ | .jpNn | .illegal _ => 0b00#2
  len := i.length
  op := encode i
  text := i.template

/-- The 256-entry ROM: `decode` applied to every byte value once, in order (R76, 70_reset_and_hazards.md R263). -/
def rom : List DecodedInstr := (List.range 256).map fun n => romWord (decode (BitVec.ofNat 8 n))

/-! ## The host's question -/

/-- The three bytes from which the host's word is read: bit 0 of `w` is bit 0 of the first byte, and every bit from
`nbits` on is 0. Three bytes is the longest instruction (R70). -/
def tableBytes (nbits w : Nat) : List Byte :=
  let v := w % 2 ^ nbits
  [BitVec.ofNat 8 v, BitVec.ofNat 8 (v / 2 ^ 8), BitVec.ofNat 8 (v / 2 ^ 16)]

/-- The instruction the decoder reads from an opcode-table word. -/
def decodeTableWord (nbits w : Nat) : Option Instr :=
  match decodeBytes (tableBytes nbits w) with
  | .ok (e, _) => some e.instr
  | .error _ => none

end Sys2Proof
end

