-- ==== Sys2Proof/Machine/ResetValues.lean ====
section
/-! DEFINITION. The value every element of the state has after construction (10_state.md R34, 70_reset_and_hazards.md
R260). They stand in a file of their own so that each can be read, and mended, by itself; `State.reset` assembles them. -/

namespace Sys2Proof.Machine

/-- B, C, D, E, H, L, F and A: "zeroed registers" (R34). -/
def resetReg : Byte := 0x00#8

/-- pc, the entry point (R34 and R261, by the spec's decision D6; log 6). -/
def resetPc : Word := 0x0000#16

/-- sp (R34, D6; log 6). -/
def resetSp : Word := 0x0000#16

/-- ix (R34, D6; log 6). -/
def resetIx : Word := 0x0000#16

/-- iy (R34, D6; log 6). -/
def resetIy : Word := 0x0000#16

/-- r, memory_refresh (R34, D6; log 6). -/
def resetR : Byte := 0x00#8

/-- What a memory address reads as that no cell lists: memory is "zero-initialized at construction" (R34, R50). -/
def unlistedByte : Byte := 0x00#8

/-- The defaults of the two parameters (00_scope.md R7). DESIGN CHOICE of the spec, D1 and D3 (log 1, log 2), unsafe:
only a statement about `State.reset` itself may rest on it. -/
def defaultConfig : Config := ⟨.little, .pairRead⟩

end Sys2Proof.Machine
end

