-- ==== Sys2Proof/Machine/State.lean ====
section
/-! DEFINITION. The machine state of 10_state.md as plain data, the state after reset, and the reasons a step stops. -/

namespace Sys2Proof.Machine

/-- The 64 KiB memory (20_memory.md R50) as its listed cells, address and byte. An address that no cell lists reads as
`unlistedByte`. The one canonical form is `Memory.wf` (Machine/Ops.lean; log 20). -/
abbrev Memory := List Host.Cell

/-- The `register_file` block: eight 8-bit registers (10_state.md R20). Read and written through `RegFile.get` and
`RegFile.set` (Machine/Ops.lean). -/
structure RegFile where
  b : Byte
  c : Byte
  d : Byte
  e : Byte
  h : Byte
  l : Byte
  f : Byte
  a : Byte
  deriving DecidableEq, Repr

/-- How the run stands (10_state.md R31). -/
inductive Status where
  | running
  | terminated
  | faulted (op : Byte) (opAddr : Word)
  deriving DecidableEq, Repr

/-- The whole state of the machine (10_state.md, the record at its head), and the configuration it runs under. -/
structure State where
  regs   : RegFile        -- B C D E H L F A (R20)
  pc     : Word           -- program_counter (R27)
  sp     : Word           -- stack_pointer (R26, R28)
  ix     : Word           -- index_x (R28)
  iy     : Word           -- index_y (R28)
  r      : Byte           -- memory_refresh (R28)
  mem    : Memory         -- R50
  jump   : Option Word    -- jump_address, the pending redirect (R29)
  status : Status         -- R31
  cfg    : Config         -- WORD_ORDER and HL_ADDRESS_MODE (R7); written by no step (log 3)
  deriving DecidableEq, Repr

/-- The machine right after construction (R34, R260). -/
def State.reset : State where
  regs := ⟨resetReg, resetReg, resetReg, resetReg, resetReg, resetReg, resetReg, resetReg⟩
  pc := resetPc
  sp := resetSp
  ix := resetIx
  iy := resetIy
  r := resetR
  mem := []
  jump := none
  status := .running
  cfg := defaultConfig

/-- Why `step` has no next state. Both are raised by `step` alone, from a state whose run has ended: "A state whose
status is not Running has no step" (R31). No meaning raises either. -/
inductive Fault where
  /-- Raised by `step` on a state whose status is Terminated (R31, R103). Safe: the spec gives no step there. -/
  | runTerminated
  /-- Raised by `step` on a state whose status is Faulted(op, at) (R31, R231). Safe: the spec gives no step there. -/
  | runFaulted (op : Byte) (opAddr : Word)
  deriving DecidableEq, Repr

/-- Why an instruction has no meaning. No arm of `exec` answers with it. -/
inductive Refusal where
  /-- For an arm of `exec` without a meaning; no arm is in that case. Safe: nothing is claimed of such an instruction. -/
  | notModelled (mnemonic : String)
  deriving DecidableEq, Repr

end Sys2Proof.Machine
end

