-- ==== Sys2Proof/Machine/Ops.lean ====
section
/-! DEFINITION. The shared operations over memory, registers, register pairs and pc, and taking the one exception. -/

namespace Sys2Proof.Machine

/-! ## Memory: the `memory_address_decoder` block (20_memory.md) -/

/-- The byte at cell number `k`. -/
def Memory.lookup : Memory → Nat → Byte
  | [], _ => unlistedByte
  | (j, x) :: m, k => if j = k then x else Memory.lookup m k

/-- `MemRead(a, 1)` (R53). Every address reads; none faults (R51). -/
def Memory.read (m : Memory) (a : Word) : Byte := Memory.lookup m a.toNat

/-- Put `v` at cell number `k`, keeping addresses rising and listing no cell that holds `unlistedByte`. -/
def Memory.store : Memory → Nat → Byte → Memory
  | [], k, v => if v = unlistedByte then [] else [(k, v)]
  | (j, x) :: m, k, v =>
    if k < j then (if v = unlistedByte then (j, x) :: m else (k, v) :: (j, x) :: m)
    else if k = j then (if v = unlistedByte then m else (k, v) :: m)
    else (j, x) :: Memory.store m k v

/-- `MemWrite(a, 1, v)` (R53). -/
def Memory.write (m : Memory) (a : Word) (v : Byte) : Memory := Memory.store m a.toNat v

/-- Addresses strictly rise from `lo` on, lie in the 65536-byte space (R50), and no cell holds `unlistedByte`. -/
def Memory.wfFrom : Nat → Memory → Bool
  | _, [] => true
  | lo, (k, x) :: m =>
    decide (lo ≤ k) && decide (k < 65536) && decide (x ≠ unlistedByte) && Memory.wfFrom (k + 1) m

/-- The canonical form of memory: equal memories are equal lists (log 20). -/
def Memory.wf (m : Memory) : Bool := Memory.wfFrom 0 m

/-- `{hi, lo}`: two bytes as a word, `hi` in bits 15:8 (00_scope.md R8). -/
def joinBytes (hi lo : Byte) : Word := hi ++ lo

/-- `v[15:8]`. -/
def hiByte (v : Word) : Byte := v.extractLsb' 8 8

/-- `v[7:0]`. -/
def loByte (v : Word) : Byte := v.extractLsb' 0 8

/-- The word two bytes make when `b0` stands at the lower address (R53, R74, R102: the one place byte order is read). -/
def wordOfBytes : WordOrder → Byte → Byte → Word
  | .little, b0, b1 => joinBytes b1 b0
  | .big, b0, b1 => joinBytes b0 b1

/-- The byte of `v` that stands at the lower address (R53). -/
def lowAddrByte : WordOrder → Word → Byte
  | .little, v => loByte v
  | .big, v => hiByte v

/-- The byte of `v` that stands at the higher address (R53). -/
def highAddrByte : WordOrder → Word → Byte
  | .little, v => hiByte v
  | .big, v => loByte v

/-- `MemRead(a, 1)` on the machine state. -/
def State.readByte (s : State) (a : Word) : Byte := s.mem.read a

/-- `MemWrite(a, 1, v)` on the machine state. -/
def State.writeByte (s : State) (a : Word) (v : Byte) : State := { s with mem := s.mem.write a v }

/-- `MemRead(a, 2)`: the bytes at a and a+1 mod 2^16, in WORD_ORDER (R53; the wrap is D4, log 4). -/
def State.readWord (s : State) (a : Word) : Word :=
  wordOfBytes s.cfg.wordOrder (s.readByte a) (s.readByte (a + 1#16))

/-- `MemWrite(a, 2, v)`: the bytes at a and a+1 mod 2^16, in WORD_ORDER (R53; the wrap is D4, log 4). -/
def State.writeWord (s : State) (a : Word) (v : Word) : State :=
  (s.writeByte a (lowAddrByte s.cfg.wordOrder v)).writeByte (a + 1#16) (highAddrByte s.cfg.wordOrder v)

/-- Bytes written at ascending addresses from `a` (mod 2^16): how the host supplies a program before the first step
(70_reset_and_hazards.md R262). -/
def State.loadBytes (s : State) (a : Word) : List Byte → State
  | [] => s
  | v :: vs => (s.writeByte a v).loadBytes (a + 1#16) vs

/-! ## Registers: the `register_file` block (10_state.md) -/

/-- `reg[q]` (R20, R22). -/
def RegFile.get (rf : RegFile) : Reg → Byte
  | .b => rf.b
  | .c => rf.c
  | .d => rf.d
  | .e => rf.e
  | .h => rf.h
  | .l => rf.l
  | .f => rf.f
  | .a => rf.a

/-- `reg[q] <- v`: all eight bits, F included (R22; the spec's decision D12 for F, log 9). -/
def RegFile.set (rf : RegFile) (q : Reg) (v : Byte) : RegFile :=
  match q with
  | .b => { rf with b := v }
  | .c => { rf with c := v }
  | .d => { rf with d := v }
  | .e => { rf with e := v }
  | .h => { rf with h := v }
  | .l => { rf with l := v }
  | .f => { rf with f := v }
  | .a => { rf with a := v }

/-- `reg[q]` of the machine state. -/
def State.readReg (s : State) (q : Reg) : Byte := s.regs.get q

/-- `reg[q] <- v` on the machine state. -/
def State.writeReg (s : State) (q : Reg) (v : Byte) : State := { s with regs := s.regs.set q v }

/-- `pc <- v`. -/
def State.setPc (s : State) (v : Word) : State := { s with pc := v }

/-- `sp <- v`. -/
def State.setSp (s : State) (v : Word) : State := { s with sp := v }

/-- `jump <- v` (R29). -/
def State.setJump (s : State) (v : Option Word) : State := { s with jump := v }

/-- `status <- v` (R31). -/
def State.setStatus (s : State) (v : Status) : State := { s with status := v }

/-- `{reg[H], reg[L]}`, the raw concatenation (R25). -/
def State.hlConcat (s : State) : Word := joinBytes (s.readReg .h) (s.readReg .l)

/-- `PairRead(p)` (R24, R25, R26). Pair HL reads the memory word at {H, L}. -/
def State.pairRead (s : State) : RegPair → Word
  | .bc => joinBytes (s.readReg .b) (s.readReg .c)
  | .de => joinBytes (s.readReg .d) (s.readReg .e)
  | .hl => s.readWord s.hlConcat
  | .sp => s.sp

/-- `PairWrite(p, v)` (R24, R25, R26). Pair HL writes the memory word at {H, L} and leaves H and L alone. -/
def State.pairWrite (s : State) (p : RegPair) (v : Word) : State :=
  match p with
  | .bc => (s.writeReg .b (hiByte v)).writeReg .c (loByte v)
  | .de => (s.writeReg .d (hiByte v)).writeReg .e (loByte v)
  | .hl => s.writeWord s.hlConcat v
  | .sp => s.setSp v

/-! ## The `program_counter_increment` block (40_cycle.md R104) -/

/-- `PCInc(pc) = ((pc + 1) mod 2^16, pc = 0xFFFF)`: next, and the overflow output. -/
def pcInc (pc : Word) : Word × Bool := (pc + 1#16, decide (pc = 0xFFFF#16))

/-! ## The one exception (60_exceptions.md) -/

/-- `raise IllegalOpcode(op)`: `status <- Faulted(op, pc)`, and nothing else changes (R230, R231; the spec's decision
D7, log 7). There is no handler, no saved state and no return from it (R234, R235). -/
def State.raiseIllegalOpcode (s : State) (op : Byte) : State := s.setStatus (.faulted op s.pc)

end Sys2Proof.Machine
end

