-- ==== Sys2Proof/Machine/Cycle.lean ====
section
/-! DEFINITION. What the fetch-execute cycle does around an instruction (40_cycle.md R100): the fetch before it and the
advance after it. -/

namespace Sys2Proof.Machine

/-- The opcode fetch: one byte, pc unchanged (R100). -/
def State.fetchOpcode (s : State) : Byte := s.readByte s.pc

/-- The ROM entry of the opcode at pc (R100, R101). -/
def State.fetchInstr (s : State) : Instr := decode s.fetchOpcode

/-- The end of a step (R100): after a fault nothing moves; a pending redirect is moved into pc and cleared, with no
increment and no overflow check; otherwise pc is incremented once, and the increment that would overflow is not done but
ends the run (R103; pc keeps 0xFFFF by the spec's decision D20, log 11). -/
def State.advance (s : State) : State :=
  match s.status with
  | .faulted _ _ => s
  | .running | .terminated =>
    match s.jump with
    | some t => (s.setPc t).setJump none
    | none =>
      let (next, ovf) := pcInc s.pc
      if ovf then s.setStatus .terminated else s.setPc next

end Sys2Proof.Machine
end

