-- ==== Sys2Proof/Machine/Flags.lean ====
section
/-! DEFINITION. The `alu_8bit` block (44_add_alu.md R170 to R178) and the layout of the flags byte (10_state.md R30). -/

namespace Sys2Proof.Machine

/-- The named bits of F (R30). -/
inductive Flag where
  | sign | zero | halfCarry | overflow | subtract | carry
  deriving DecidableEq, Repr

/-- The bit of F that holds a flag (R30). Bits 5 and 3 hold none. -/
def flagBit : Flag → Nat
  | .sign => 7
  | .zero => 6
  | .halfCarry => 4
  | .overflow => 2
  | .subtract => 1
  | .carry => 0

/-- A flag of a flags byte. -/
def flagOf (f : Byte) (k : Flag) : Bool := f.getLsbD (flagBit k)

/-- A flag of the machine: its bit in register F. -/
def State.flag (s : State) (k : Flag) : Bool := flagOf (s.readReg .f) k

/-- `result = (left + right) mod 256` (R171). -/
def addResult (l r : Byte) : Byte := l + r

/-- C: the unsigned sum exceeds 0xFF (R172). -/
def addCarry (l r : Byte) : Bool := decide (0xFF < l.toNat + r.toNat)

/-- H: the sum of the low nibbles exceeds 0xF (R173). -/
def addHalfCarry (l r : Byte) : Bool := decide (0xF < (l &&& 0x0F#8).toNat + (r &&& 0x0F#8).toNat)

/-- V: the sum of the operands read as two's complement leaves -128..127 (R174). -/
def addOverflow (l r : Byte) : Bool := decide (l.toInt + r.toInt < -128 ∨ 127 < l.toInt + r.toInt)

/-- S: bit 7 of the result (R175). -/
def addSign (l r : Byte) : Bool := (addResult l r).getLsbD 7

/-- Z: the result is 0 (R176). -/
def addZero (l r : Byte) : Bool := decide (addResult l r = 0x00#8)

/-- N: 0 for addition (R177). -/
def addSubtract : Bool := false

/-- A bit at position `k` of a byte whose other bits are 0. -/
def bitAt (k : Nat) (v : Bool) : Byte := (BitVec.ofBool v).setWidth 8 <<< k

/-- `flags = S<<7 | Z<<6 | 0<<5 | H<<4 | 0<<3 | V<<2 | N<<1 | C` (R178). -/
def packFlags (s z h v n c : Bool) : Byte :=
  bitAt 7 s ||| bitAt 6 z ||| bitAt 4 h ||| bitAt 2 v ||| bitAt 1 n ||| bitAt 0 c

/-- The flags byte of an addition (R172 to R178). -/
def addFlags (l r : Byte) : Byte :=
  packFlags (addSign l r) (addZero l r) (addHalfCarry l r) (addOverflow l r) addSubtract (addCarry l r)

/-- `ALU.add(left, right)`: result and flags (R170). Combinational: no carry-in and no state. -/
def aluAdd (l r : Byte) : Byte × Byte := (addResult l r, addFlags l r)

end Sys2Proof.Machine
end

