-- ==== Sys2Proof/Machine/Arith.lean ====
section
/-! DEFINITION. ADD A,r (44_add_alu.md). -/

namespace Sys2Proof.Machine

/-- ADD A,r (R179, R180, R181): both operands are read before either write, and all eight bits of F are replaced (the
spec's decision D13, log 10). -/
def execAddAR (src : Reg) (s : State) : Host.Outcome State Fault Refusal :=
  let (res, fl) := aluAdd (s.readReg .a) (s.readReg src)
  .next ((s.writeReg .a res).writeReg .f fl)

end Sys2Proof.Machine
end

