-- ==== Sys2Proof/Machine/Operands.lean ====
section
/-! DEFINITION. The operand forms: immediates consumed through pc (40_cycle.md R102) and the HL address (42_load8.md
R130). -/

namespace Sys2Proof.Machine

/-- `Consume8()`: pc advances by one, wrapping (the overflow output is ignored; the spec's decision D5, log 5), and the
byte at the new pc is the operand (R102). -/
def State.consume8 (s : State) : Byte × State :=
  let s' := s.setPc (pcInc s.pc).1
  (s'.readByte s'.pc, s')

/-- `Consume16()`: two `Consume8`, combined by WORD_ORDER (R102). -/
def State.consume16 (s : State) : Word × State :=
  let (b0, s₁) := s.consume8
  let (b1, s₂) := s₁.consume8
  (wordOfBytes s.cfg.wordOrder b0 b1, s₂)

/-- The immediate byte of the instruction at pc, peeked without consuming it: the byte after the opcode (30_encoding.md
R74, 46_disassembly.md R202). -/
def State.immByte (s : State) : Byte := s.readByte (s.pc + 1#16)

/-- The immediate word of the instruction at pc, peeked without consuming it: the two bytes after the opcode in
WORD_ORDER (R74, R202). -/
def State.immWord (s : State) : Word :=
  wordOfBytes s.cfg.wordOrder (s.readByte (s.pc + 1#16)) (s.readByte (s.pc + 2#16))

/-- The address of LD r,(HL) (R130): the value of register pair HL under `pair_read`, {H, L} under `direct`. -/
def State.hlAddress (s : State) : Word :=
  match s.cfg.hlAddressMode with
  | .pairRead => s.pairRead .hl
  | .direct => s.hlConcat

end Sys2Proof.Machine
end

