-- ==== Sys2Proof/Machine/Control.lean ====
section
/-! DEFINITION. NOP (41_nop.md), JP nn (45_jump.md) and the illegal-opcode instruction (60_exceptions.md). -/

namespace Sys2Proof.Machine

/-- NOP (R120): no state change. -/
def execNop (s : State) : Host.Outcome State Fault Refusal := .next s

/-- JP nn (R190): consume the target and set the pending redirect; the cycle moves it into pc (R100). -/
def execJpNn (s : State) : Host.Outcome State Fault Refusal :=
  let (nn, s') := s.consume16
  .next (s'.setJump (some nn))

/-- An illegal opcode (R231): raise IllegalOpcode(op). The state it leaves is a NEXT state whose status is Faulted; no
step follows it (log 7, log 8). -/
def execIllegal (op : Byte) (s : State) : Host.Outcome State Fault Refusal :=
  .next (s.raiseIllegalOpcode op)

end Sys2Proof.Machine
end

