-- ==== Sys2Proof/Machine/Load16.lean ====
section
/-! DEFINITION. The 16-bit immediate loads (43_load16.md). -/

namespace Sys2Proof.Machine

/-- LD rr,nn (R150 to R153): the operand is fully consumed before the pair is written, so LD HL,nn writing over its own
bytes does not change nn. -/
def execLdRrNn (p : RegPair) (s : State) : Host.Outcome State Fault Refusal :=
  let (nn, s') := s.consume16
  .next (s'.pairWrite p nn)

end Sys2Proof.Machine
end

