-- ==== Sys2Proof/Machine/Load8.lean ====
section
/-! DEFINITION. The 8-bit loads (42_load8.md). None writes F except by naming it as destination. -/

namespace Sys2Proof.Machine

/-- LD r,(HL) (R130, R133): the address is formed before the write, so d = H or d = L does not disturb it. -/
def execLdRHl (dst : Reg) (s : State) : Host.Outcome State Fault Refusal :=
  .next (s.writeReg dst (s.readByte s.hlAddress))

/-- LD r,r' (R131, R134, R135). -/
def execLdRR (dst src : Reg) (s : State) : Host.Outcome State Fault Refusal :=
  .next (s.writeReg dst (s.readReg src))

/-- LD r,n (R132, R136). -/
def execLdRN (dst : Reg) (s : State) : Host.Outcome State Fault Refusal :=
  let (n, s') := s.consume8
  .next (s'.writeReg dst n)

end Sys2Proof.Machine
end

