-- ==== Sys2Proof/Machine/Dispatch.lean ====
section
/-! DEFINITION. `Execute(ins)` (40_cycle.md R100): one arm per kind of instruction, each one call of its meaning. -/

namespace Sys2Proof.Machine

def exec (i : Instr) (s : State) : Host.Outcome State Fault Refusal :=
  match i with
  | .nop => Sys2Proof.Machine.execNop s
  | .ldRHl dst => Sys2Proof.Machine.execLdRHl dst s
  | .ldRR dst src => Sys2Proof.Machine.execLdRR dst src s
  | .ldRN dst => Sys2Proof.Machine.execLdRN dst s
  | .ldRrNn p => Sys2Proof.Machine.execLdRrNn p s
  | .addAR src => Sys2Proof.Machine.execAddAR src s
  | .jpNn => Sys2Proof.Machine.execJpNn s
  | .illegal op => Sys2Proof.Machine.execIllegal op s

end Sys2Proof.Machine
end

