-- ==== Sys2Proof/Machine/Step.lean ====
section
/-! DEFINITION. One step of the machine (40_cycle.md R100). -/

namespace Sys2Proof.Machine

/-- `Step(s)` (R100): fetch the opcode at pc, execute its ROM entry, advance. Defined only while the run stands at
Running; an ended run stops with a fault that says how it ended (R31; log 8). -/
def step (s : State) : Host.Outcome State Fault Refusal :=
  match s.status with
  | .terminated => .fault .runTerminated
  | .faulted op opAddr => .fault (.runFaulted op opAddr)
  | .running =>
    match exec s.fetchInstr s with
    | .next t => .next t.advance
    | .fault x => .fault x
    | .refused x => .refused x

/-- `s` with an opcode-table word stored at pc, so that the very next step runs it. A program comes to run because the
host writes its bytes into memory before the first step (70_reset_and_hazards.md R262; log 17); the status is set to
Running because the fetch needs it, which changes nothing on a state after reset. -/
def State.withFetchWord (s : State) (nbits w : Nat) : State :=
  (s.loadBytes s.pc (tableBytes nbits w)).setStatus .running

end Sys2Proof.Machine
end

