-- ==== Sys2Proof/Machine/Disassembly.lean ====
section
/-! DEFINITION. The disassembly text (46_disassembly.md R200 to R206): the Disassembly Capability and its two renderers.
Rendering is a function to text; it cannot change a state. -/

namespace Sys2Proof.Machine

/-- One lowercase hexadecimal digit (R202, the spec's decision D14, log 18). -/
def hexDigit (n : Nat) : Char :=
  match n with
  | 0 => '0' | 1 => '1' | 2 => '2' | 3 => '3' | 4 => '4' | 5 => '5' | 6 => '6' | 7 => '7'
  | 8 => '8' | 9 => '9' | 10 => 'a' | 11 => 'b' | 12 => 'c' | 13 => 'd' | 14 => 'e' | _ => 'f'

/-- Two digits, zero-padded (R202). -/
def hex2 (v : Byte) : Text := [hexDigit (v.toNat / 16), hexDigit (v.toNat % 16)]

/-- Four digits, zero-padded (R202). -/
def hex4 (v : Word) : Text := hex2 (hiByte v) ++ hex2 (loByte v)

/-- The Disassembly Capability (R200): the Static one (R201), or the Dynamic one bound to a live state (R202). -/
inductive Capability where
  | static
  | dynamic (s : State)
  deriving DecidableEq, Repr

/-- `render_indirect_address()` (R201, R202). -/
def renderIndirectAddress : Capability → Text
  | .static => ['(', 'h', 'l', ')']
  | .dynamic s => '@' :: hex4 s.hlAddress

/-- `render_immediate_byte()` (R201, R202): peeks, does not consume. -/
def renderImmediateByte : Capability → Text
  | .static => ['n']
  | .dynamic s => '$' :: hex2 s.immByte

/-- `render_immediate_word()` (R201, R202): peeks, does not consume. -/
def renderImmediateWord : Capability → Text
  | .static => ['n', 'n']
  | .dynamic s => '$' :: hex4 s.immWord

/-- The text of one piece of a template. -/
def renderPart (cap : Capability) : TextPart → Text
  | .lit t => t
  | .ind => renderIndirectAddress cap
  | .imm8 => renderImmediateByte cap
  | .imm16 => renderImmediateWord cap

/-- `disassemble`: an instruction's template with the capability's operations in the operand slots (R200, R205). -/
def disassemble (cap : Capability) (i : Instr) : Text := i.template.flatMap (renderPart cap)

/-- The text a trace shows for the step about to run: the Dynamic text of the instruction at pc, read from the state at
the start of the step (R206). -/
def State.stepText (s : State) : Text := disassemble (.dynamic s) s.fetchInstr

end Sys2Proof.Machine
end

