-- ==== Sys2Proof/Safety.lean ====
section
/-! DEFINITION. The terms claims are stated in: launch states, the run invariant, how a run ends, what two states share,
and what a step may read. -/

namespace Sys2Proof.Machine

/-! ## Launch and the run invariant -/

/-- A state a host may launch from (70_reset_and_hazards.md R262, 92_eei_decisions.md D2): any registers, any memory, any
pc, with no redirect pending and status Running. -/
def State.launchable (s : State) : Prop :=
  s.mem.wf = true ∧ s.jump = none ∧ s.status = .running

/-- What holds of every state of a run at the end of each step: memory is canonical; no redirect is pending (10_state.md
R29); a terminated run stands at 0xFFFF (40_cycle.md R103); a faulted run stands at the illegal opcode it records
(60_exceptions.md R231). -/
def State.Inv (s : State) : Prop :=
  s.mem.wf = true ∧ s.jump = none ∧
  (s.status = .terminated → s.pc = 0xFFFF#16) ∧
  (∀ op opAddr, s.status = .faulted op opAddr → opAddr = s.pc ∧ s.fetchInstr = .illegal op)

/-! ## Runs (40_cycle.md R107) -/

/-- `k` steps from `s` lead to `t`. -/
def runsTo (s : State) (k : Nat) (t : State) : Prop := Host.Core.run core k s = .next t

/-- The run ends well: it reaches Terminated. -/
def EndsWell (s : State) : Prop := ∃ k t, runsTo s k t ∧ t.status = .terminated

/-- The run ends badly: it reaches Faulted(op, at). -/
def EndsBadly (s : State) (op : Byte) (opAddr : Word) : Prop :=
  ∃ k t, runsTo s k t ∧ t.status = .faulted op opAddr

/-- The run does not end: after any number of steps it is still Running. -/
def NeverEnds (s : State) : Prop := ∀ k, ∃ t, runsTo s k t ∧ t.status = .running

/-! ## Frames -/

/-- Every register not in `ds` reads as before. -/
def State.sameRegsExcept (ds : List Reg) (s t : State) : Prop := ∀ q, q ∉ ds → t.readReg q = s.readReg q

/-- Every byte of memory at an address not in `as` reads as before. -/
def State.sameMemExcept (addrs : List Word) (s t : State) : Prop := ∀ a, a ∉ addrs → t.readByte a = s.readByte a

/-- The registers and parameters no instruction writes: ix, iy, r (10_state.md R28) and the configuration (R7). -/
def State.sameFixed (s t : State) : Prop := t.ix = s.ix ∧ t.iy = s.iy ∧ t.r = s.r ∧ t.cfg = s.cfg

/-- The pending redirect and the run status are as before. -/
def State.sameControl (s t : State) : Prop := t.jump = s.jump ∧ t.status = s.status

/-- The registers an instruction may write (10_state.md R22). -/
def destinations : Instr → List Reg
  | .nop => []
  | .ldRHl dst => [dst]
  | .ldRR dst _ => [dst]
  | .ldRN dst => [dst]
  | .ldRrNn .bc => [.b, .c]
  | .ldRrNn .de => [.d, .e]
  | .ldRrNn .hl => []
  | .ldRrNn .sp => []
  | .addAR _ => [.a, .f]
  | .jpNn => []
  | .illegal _ => []

/-! ## What a step may depend on -/

/-- Apply `f` to the next state of an outcome; leave a stop as it is. -/
def mapNext (f : State → State) : Host.Outcome State Fault Refusal → Host.Outcome State Fault Refusal
  | .next s => .next (f s)
  | .fault x => .fault x
  | .refused x => .refused x

/-- `s` with other values in the three registers no instruction uses (R28). -/
def State.withUnused (s : State) (ix iy : Word) (r : Byte) : State := { s with ix := ix, iy := iy, r := r }

/-- `s` with another memory. -/
def State.withMem (s : State) (m : Memory) : State := { s with mem := m }

/-- The addresses a step from `s` reads (20_memory.md R52, R56): the opcode, the operand bytes of its length, and for
LD r,(HL) the pointer word (under `pair_read`) and the data byte. -/
def State.readSet (s : State) : List Word :=
  match s.fetchInstr with
  | .nop => [s.pc]
  | .ldRHl _ =>
    match s.cfg.hlAddressMode with
    | .pairRead => [s.pc, s.hlConcat, s.hlConcat + 1#16, s.hlAddress]
    | .direct => [s.pc, s.hlConcat]
  | .ldRR _ _ => [s.pc]
  | .ldRN _ => [s.pc, s.pc + 1#16]
  | .ldRrNn _ => [s.pc, s.pc + 1#16, s.pc + 2#16]
  | .addAR _ => [s.pc]
  | .jpNn => [s.pc, s.pc + 1#16, s.pc + 2#16]
  | .illegal _ => [s.pc]

end Sys2Proof.Machine
end

