-- ==== Sys2Proof/Certificates/Slice0/Obligations.lean ====
section
/-! DEFINITION. The statements for the provers, in the order of the spec's files. `s` is the state before, `t` the state
after. Every statement about all states holds for both byte orders and both HL address modes (00_scope.md R7).
"Model's choice" names a log entry; "spec's decision" names an entry of 92_eei_decisions.md. -/

open Sys2Proof Sys2Proof.Machine

/-! ## Reset, launch and the run invariant -/

/-- R34 and R260: every element after construction. That pc, sp, ix, iy, r and jump are among them is the spec's
decision D6 (log 6), status is D7 (log 7), the two parameters' defaults are D1 and D3 (log 1, log 2). -/
def Obligations.ResetIsTheConstructionState : Prop :=
  (∀ q, State.reset.readReg q = 0x00#8) ∧ (∀ a, State.reset.readByte a = 0x00#8) ∧
  State.reset.pc = 0x0000#16 ∧ State.reset.sp = 0x0000#16 ∧ State.reset.ix = 0x0000#16 ∧
  State.reset.iy = 0x0000#16 ∧ State.reset.r = 0x00#8 ∧ State.reset.jump = none ∧
  State.reset.status = .running ∧ State.reset.cfg = ⟨.little, .pairRead⟩

/-- The reset state, and every launch state a host may prepare (R262, D2; log 17), meets the run invariant; writing a
program's bytes into memory keeps a state launchable. -/
def Obligations.LaunchStatesMeetTheRunInvariant : Prop :=
  State.reset.Inv ∧ State.reset.launchable ∧
  (∀ s : State, s.launchable → s.Inv) ∧
  (∀ (s : State) (a : Word) (vs : List Byte), s.launchable → (s.loadBytes a vs).launchable)

/-- From every state that meets the run invariant, a step gives a state that meets it. Where a terminated and a faulted
run stand rests on the spec's decisions D20 and D7 (log 11, log 7). -/
def Obligations.EveryStepKeepsTheRunInvariant : Prop :=
  ∀ s t : State, s.Inv → step s = .next t → t.Inv

/-! ## Encoding and the decoder ROM -/

/-- R72 (and the table of R20): each 3-bit register field, of every form that has one, names the register of the
table; every value is valid; F is never the source of LD r,r'. -/
def Obligations.RegisterFieldsDecodeThroughTheSelectorTable : Prop :=
  Reg.ofSel 0b000#3 = .b ∧ Reg.ofSel 0b001#3 = .c ∧ Reg.ofSel 0b010#3 = .d ∧ Reg.ofSel 0b011#3 = .e ∧
  Reg.ofSel 0b100#3 = .h ∧ Reg.ofSel 0b101#3 = .l ∧ Reg.ofSel 0b110#3 = .f ∧ Reg.ofSel 0b111#3 = .a ∧
  (∀ x : BitVec 3, decode (0b01#2 ++ x ++ 0b110#3) = .ldRHl (Reg.ofSel x)) ∧
  (∀ x y : BitVec 3, y ≠ 0b110#3 → decode (0b01#2 ++ x ++ y) = .ldRR (Reg.ofSel x) (Reg.ofSel y)) ∧
  (∀ x : BitVec 3, decode (0b00#2 ++ x ++ 0b110#3) = .ldRN (Reg.ofSel x)) ∧
  (∀ y : BitVec 3, decode (0b10000#5 ++ y) = .addAR (Reg.ofSel y)) ∧
  (∀ (op : Byte) (dst : Reg), decode op ≠ .ldRR dst .f)

/-- R73 (and the table of R23): each 2-bit pair field names the pair of the table, and all four values are valid. -/
def Obligations.PairFieldsDecodeThroughTheSelectorTable : Prop :=
  RegPair.ofSel 0b00#2 = .bc ∧ RegPair.ofSel 0b01#2 = .de ∧ RegPair.ofSel 0b10#2 = .hl ∧
  RegPair.ofSel 0b11#2 = .sp ∧
  (∀ x : BitVec 2, decode (0b00#2 ++ x ++ 0b0001#4) = .ldRrNn (RegPair.ofSel x))

/-- R70: the opcode byte alone fixes the length, 1, 2 or 3 bytes by its form, and the operand bytes are those right
after it: reading an instruction from a list of bytes takes exactly them and leaves the rest. -/
def Obligations.OpcodeAloneFixesTheLength : Prop :=
  ∀ (op : Byte) (rest : List Byte),
    (decode op).length =
      (match (decode op).kind with
        | .NOP | .LD_R_HL | .LD_R_R | .ADD_A_R | .ILLEGAL => 1
        | .LD_R_N => 2
        | .LD_RR_NN | .JP_NN => 3) ∧
    ((decode op).length ≤ rest.length + 1 →
      decodeBytes (op :: rest) =
        .ok (⟨decode op, rest.take ((decode op).length - 1)⟩, rest.drop ((decode op).length - 1)))

/-- R75: the kind decode gives is that of the first (mask, match) pair the opcode matches. Only the second and third
pairs overlap, and 0x76 is LD F,(HL) (the spec's own inferences from the masks). -/
def Obligations.DecodeIsTheFirstMatchingPattern : Prop :=
  (∀ op : Byte, (decode op).kind = firstMatch
    [(0xFF#8, 0x00#8, .NOP), (0xC7#8, 0x46#8, .LD_R_HL), (0xC0#8, 0x40#8, .LD_R_R), (0xC7#8, 0x06#8, .LD_R_N),
     (0xCF#8, 0x01#8, .LD_RR_NN), (0xF8#8, 0x80#8, .ADD_A_R), (0xFF#8, 0xC3#8, .JP_NN)] op) ∧
  (∀ op : Byte, ∀ x ∈ maskMatchRows, ∀ y ∈ maskMatchRows,
    op &&& x.1 = x.2.1 → op &&& y.1 = y.2.1 → x ≠ y →
      (x.2.2 = .LD_R_HL ∧ y.2.2 = .LD_R_R) ∨ (x.2.2 = .LD_R_R ∧ y.2.2 = .LD_R_HL)) ∧
  decode 0x76#8 = .ldRHl .f

/-- R77 and R78 (derived by the spec from R75): an opcode is illegal exactly when R78 lists it, it then carries itself,
and the forms count 1, 8, 56, 8, 4, 8, 1 and 170 opcodes. -/
def Obligations.IllegalOpcodesAreTheListed170 : Prop :=
  (∀ op : Byte, decode op = .illegal op ↔ isIllegalOpcode op = true) ∧
  (∀ op x : Byte, decode op = .illegal x → x = op) ∧
  (∀ k : InstrKind, ((rom.filter fun w => decide (w.kind = k)).length =
    match k with
      | .NOP => 1
      | .LD_R_HL => 8
      | .LD_R_R => 56
      | .LD_R_N => 8
      | .LD_RR_NN => 4
      | .ADD_A_R => 8
      | .JP_NN => 1
      | .ILLEGAL => 170))

/-- Decoding any opcode gives a well-formed instruction, whose encoding is that opcode (R71, R75). -/
def Obligations.EveryOpcodeIsTheEncodingOfItsDecode : Prop :=
  ∀ op : Byte, encode (decode op) = op ∧ (decode op).wf = true

/-- Every well-formed instruction, with every value of its selectors and operand bytes, reads back from its bytes, and
the bytes after it are left (R70, R71, R75). -/
def Obligations.EncodedInstructionsDecodeBack : Prop :=
  ∀ (e : Encoded) (rest : List Byte), e.wf = true →
    decodeBytes (encodeBytes e ++ rest) = .ok (e, rest) ∧ (encodeBytes e).length = e.instr.length

/-- Words written out bit by bit from the field layout of R71, at least one of each form. -/
def Obligations.SampleOpcodesDecodeAsTheLayoutSays : Prop :=
  decode 0b00000000#8 = .nop ∧ decode 0b01110110#8 = .ldRHl .f ∧ decode 0b01000111#8 = .ldRR .b .a ∧
  decode 0b00110110#8 = .ldRN .f ∧ decode 0b00100001#8 = .ldRrNn .hl ∧ decode 0b10000110#8 = .addAR .f ∧
  decode 0b11000011#8 = .jpNn ∧ decode 0b11001011#8 = .illegal 0xCB#8

/-- R76: the ROM has exactly 256 entries, entry `op` holds what `op` decodes to, and nothing but the opcode value selects
it. The shape of an entry (R80) is the spec's decision D22 (log 22): the selectors are the opcode's own field bits where
the kind uses them and 0 where it does not. -/
def Obligations.RomHoldsOneWordPerOpcode : Prop :=
  rom.length = 256 ∧
  (∀ op : Byte, rom[op.toNat]? = some (romWord (decode op))) ∧
  (∀ op : Byte, (romWord (decode op)).op = op ∧ (romWord (decode op)).kind = (decode op).kind ∧
    (romWord (decode op)).len = (decode op).length ∧ (romWord (decode op)).text = (decode op).template ∧
    (romWord (decode op)).d =
      (match (decode op).kind with
        | .LD_R_HL | .LD_R_R | .LD_R_N => op.extractLsb' 3 3
        | .NOP | .LD_RR_NN | .ADD_A_R | .JP_NN | .ILLEGAL => 0b000#3) ∧
    (romWord (decode op)).s =
      (match (decode op).kind with
        | .LD_R_R | .ADD_A_R => op.extractLsb' 0 3
        | .NOP | .LD_R_HL | .LD_R_N | .LD_RR_NN | .JP_NN | .ILLEGAL => 0b000#3) ∧
    (romWord (decode op)).p =
      (match (decode op).kind with
        | .LD_RR_NN => op.extractLsb' 4 2
        | .NOP | .LD_R_HL | .LD_R_R | .LD_R_N | .ADD_A_R | .JP_NN | .ILLEGAL => 0b00#2))

/-! ## Registers and pairs -/

/-- R22: a write to any register stores all eight bits and moves no other register, and reading the register gives them
back. That F is not masked is the spec's decision D12 (log 9). -/
def Obligations.RegisterWritesStoreAllEightBits : Prop :=
  ∀ (s : State) (q : Reg) (v : Byte),
    (s.writeReg q v).readReg q = v ∧ State.sameRegsExcept [q] s (s.writeReg q v) ∧
    State.sameMemExcept [] s (s.writeReg q v) ∧ State.sameFixed s (s.writeReg q v) ∧
    State.sameControl s (s.writeReg q v) ∧ (s.writeReg q v).pc = s.pc ∧ (s.writeReg q v).sp = s.sp

/-- R24: pairs BC and DE read and write as the big-endian concatenation of their two registers. -/
def Obligations.PairsBcAndDeAreBigEndianConcatenations : Prop :=
  ∀ (s : State) (v : Word),
    s.pairRead .bc = s.readReg .b ++ s.readReg .c ∧
    s.pairRead .de = s.readReg .d ++ s.readReg .e ∧
    (let t := s.pairWrite .bc v
     t.readReg .b = v.extractLsb' 8 8 ∧ t.readReg .c = v.extractLsb' 0 8 ∧ t.pairRead .bc = v ∧
     State.sameRegsExcept [.b, .c] s t ∧ State.sameMemExcept [] s t ∧ State.sameFixed s t ∧
     State.sameControl s t ∧ t.pc = s.pc ∧ t.sp = s.sp) ∧
    (let t := s.pairWrite .de v
     t.readReg .d = v.extractLsb' 8 8 ∧ t.readReg .e = v.extractLsb' 0 8 ∧ t.pairRead .de = v ∧
     State.sameRegsExcept [.d, .e] s t ∧ State.sameMemExcept [] s t ∧ State.sameFixed s t ∧
     State.sameControl s t ∧ t.pc = s.pc ∧ t.sp = s.sp)

/-- R26: pair SP is the stack_pointer field, read and written. -/
def Obligations.PairSpIsTheStackPointerField : Prop :=
  ∀ (s : State) (v : Word),
    s.pairRead .sp = s.sp ∧
    (let t := s.pairWrite .sp v
     t.sp = v ∧ State.sameRegsExcept [] s t ∧ State.sameMemExcept [] s t ∧ State.sameFixed s t ∧
     State.sameControl s t ∧ t.pc = s.pc)

/-- R25: pair HL is the memory word at {H, L}, in either byte order (the parameter of the spec's decision D1, log 1);
writing it leaves every register and every other byte alone. The second byte's wrap is D4 (log 4). -/
def Obligations.PairHlIsTheMemoryWordAtHl : Prop :=
  ∀ (s : State) (v : Word), s.mem.wf = true →
    (let hl : Word := s.readReg .h ++ s.readReg .l
     let t := s.pairWrite .hl v
     (s.cfg.wordOrder = .little →
       s.pairRead .hl = s.readByte (hl + 1#16) ++ s.readByte hl ∧
       t.readByte hl = v.extractLsb' 0 8 ∧ t.readByte (hl + 1#16) = v.extractLsb' 8 8) ∧
     (s.cfg.wordOrder = .big →
       s.pairRead .hl = s.readByte hl ++ s.readByte (hl + 1#16) ∧
       t.readByte hl = v.extractLsb' 8 8 ∧ t.readByte (hl + 1#16) = v.extractLsb' 0 8) ∧
     t.pairRead .hl = v ∧ State.sameRegsExcept [] s t ∧ State.sameMemExcept [hl, hl + 1#16] s t ∧
     State.sameFixed s t ∧ State.sameControl s t ∧ t.pc = s.pc ∧ t.sp = s.sp)

/-! ## Memory -/

/-- R53 and R60: a word written is read back from the same address, its bytes stand in the machine's byte order, every
other byte reads as before, and the memory stays canonical. The wrap at 0xFFFF is the spec's decision D4 (log 4). -/
def Obligations.WordAccessFollowsWordOrder : Prop :=
  ∀ (s : State) (a v : Word), s.mem.wf = true →
    (s.writeWord a v).readWord a = v ∧
    (s.cfg.wordOrder = .little →
      (s.writeWord a v).readByte a = v.extractLsb' 0 8 ∧ (s.writeWord a v).readByte (a + 1#16) = v.extractLsb' 8 8) ∧
    (s.cfg.wordOrder = .big →
      (s.writeWord a v).readByte a = v.extractLsb' 8 8 ∧ (s.writeWord a v).readByte (a + 1#16) = v.extractLsb' 0 8) ∧
    State.sameMemExcept [a, a + 1#16] s (s.writeWord a v) ∧ (s.writeWord a v).mem.wf = true

/-- Two canonical memories that read alike at every address are the same data (the representation is the model's
choice, log 20). -/
def Obligations.EqualMemoriesAreEqualData : Prop :=
  ∀ m n : Memory, m.wf = true → n.wf = true → (∀ a, m.read a = n.read a) → m = n

/-- R262: a program's bytes, written from address `a` on, read back at consecutive addresses (mod 2^16), every other byte
reads as before, and nothing but memory changes. -/
def Obligations.ProgramBytesLoadAtConsecutiveAddresses : Prop :=
  ∀ (s : State) (a : Word) (vs : List Byte), s.mem.wf = true → vs.length ≤ 65536 →
    (∀ k (hk : k < vs.length), (s.loadBytes a vs).readByte (a + BitVec.ofNat 16 k) = vs[k]) ∧
    (∀ b, (∀ k, k < vs.length → b ≠ a + BitVec.ofNat 16 k) → (s.loadBytes a vs).readByte b = s.readByte b) ∧
    (s.loadBytes a vs).mem.wf = true ∧ s.loadBytes a vs = s.withMem (s.loadBytes a vs).mem

/-- A well-formed instruction loaded at pc is the one the cycle fetches, with the operand bytes it was encoded with
(R70, R74, R100, R262). -/
def Obligations.LoadedInstructionIsTheOneFetched : Prop :=
  ∀ (s : State) (e : Encoded), s.mem.wf = true → e.wf = true →
    (let t := s.loadBytes s.pc (encodeBytes e)
     t.fetchInstr = e.instr ∧ t.pc = s.pc ∧
     (∀ n, e.operands = [n] → t.immByte = n) ∧
     (∀ b0 b1, e.operands = [b0, b1] → s.cfg.wordOrder = .little → t.immWord = b1 ++ b0) ∧
     (∀ b0 b1, e.operands = [b0, b1] → s.cfg.wordOrder = .big → t.immWord = b0 ++ b1))

/-! ## The program counter and operand consumption -/

/-- R104: `next` is pc + 1 mod 2^16, and `ovf` is the carry out of bit 15, set at 0xFFFF alone. The block's two outputs
are the spec's rendering (D8). -/
def Obligations.IncrementerReportsOverflow : Prop :=
  ∀ pc : Word, (pcInc pc).1.toNat = (pc.toNat + 1) % 65536 ∧
    ((pcInc pc).2 = true ↔ pc = 0xFFFF#16) ∧ ((pcInc pc).2 = (pc.toNat + 1).testBit 16)

/-- R74 and R102: consuming an operand reads the one or two bytes after pc, unsigned, a word in the machine's byte order
(D1, log 1), moves pc past them with wrapping (D5, log 5) and changes nothing else. -/
def Obligations.OperandConsumptionReadsTheFollowingBytes : Prop :=
  ∀ s : State,
    s.consume8 = (s.readByte (s.pc + 1#16), s.setPc (s.pc + 1#16)) ∧
    (s.cfg.wordOrder = .little →
      s.consume16 = (s.readByte (s.pc + 2#16) ++ s.readByte (s.pc + 1#16), s.setPc (s.pc + 2#16))) ∧
    (s.cfg.wordOrder = .big →
      s.consume16 = (s.readByte (s.pc + 1#16) ++ s.readByte (s.pc + 2#16), s.setPc (s.pc + 2#16))) ∧
    s.immByte = s.consume8.1 ∧ s.immWord = s.consume16.1

/-- R102: after an instruction of length L has executed, pc = (op_addr + L - 1) mod 2^16. That an operand fetch wraps is
the spec's decision D5 (log 5); that JP nn advances pc too is D11 (log 14). -/
def Obligations.ExecutionLeavesPcAtTheLastByteConsumed : Prop :=
  ∀ (i : Instr) (s : State), ∃ t, exec i s = .next t ∧ t.pc = s.pc + BitVec.ofNat 16 (i.length - 1)

/-! ## The ALU -/

/-- R171, R172, R173, R175, R176 and R177: the result and the C, H, S, Z and N flags of an addition, and bits 5 and 3. -/
def Obligations.AluResultAndUnsignedFlags : Prop :=
  ∀ l r : Byte,
    (aluAdd l r).1.toNat = (l.toNat + r.toNat) % 256 ∧
    ((aluAdd l r).2.getLsbD 0 = true ↔ l.toNat + r.toNat > 0xFF) ∧
    (aluAdd l r).2.getLsbD 0 = (l.toNat + r.toNat).testBit 8 ∧
    ((aluAdd l r).2.getLsbD 4 = true ↔ (l &&& 0xF#8).toNat + (r &&& 0xF#8).toNat > 0xF) ∧
    (aluAdd l r).2.getLsbD 4 = (l.toNat % 16 + r.toNat % 16).testBit 4 ∧
    (aluAdd l r).2.getLsbD 7 = (aluAdd l r).1.getLsbD 7 ∧
    ((aluAdd l r).2.getLsbD 6 = true ↔ (aluAdd l r).1 = 0x00#8) ∧
    (l.toNat + r.toNat = 0x100 → (aluAdd l r).1 = 0x00#8 ∧ (aluAdd l r).2.getLsbD 6 = true ∧
      (aluAdd l r).2.getLsbD 0 = true) ∧
    (aluAdd l r).2.getLsbD 1 = false ∧ (aluAdd l r).2.getLsbD 5 = false ∧ (aluAdd l r).2.getLsbD 3 = false

/-- R174: V is signed overflow; the second form, from the sign bits, is the spec's own inference. -/
def Obligations.AluOverflowIsSignedOverflow : Prop :=
  ∀ l r : Byte,
    ((aluAdd l r).2.getLsbD 2 = true ↔ (l.toInt + r.toInt < -128 ∨ l.toInt + r.toInt > 127)) ∧
    ((aluAdd l r).2.getLsbD 2 = true ↔ (l.getLsbD 7 = r.getLsbD 7 ∧ (aluAdd l r).1.getLsbD 7 ≠ l.getLsbD 7))

/-- R178 and R30: the six flags at their places in the flags byte, read by name; and the ALU is commutative (the spec's
own inference), which is why left = A (D21, log 21) cannot be observed. -/
def Obligations.AluFlagsByteLayoutAndCommutativity : Prop :=
  (∀ l r : Byte,
    (aluAdd l r).2 = BitVec.ofNat 8
      (128 * (flagOf (aluAdd l r).2 .sign).toNat + 64 * (flagOf (aluAdd l r).2 .zero).toNat +
       16 * (flagOf (aluAdd l r).2 .halfCarry).toNat + 4 * (flagOf (aluAdd l r).2 .overflow).toNat +
       2 * (flagOf (aluAdd l r).2 .subtract).toNat + (flagOf (aluAdd l r).2 .carry).toNat)) ∧
  (∀ l r : Byte, aluAdd l r = aluAdd r l) ∧
  (∀ x : Byte, flagOf x .sign = x.getLsbD 7 ∧ flagOf x .zero = x.getLsbD 6 ∧ flagOf x .halfCarry = x.getLsbD 4 ∧
    flagOf x .overflow = x.getLsbD 2 ∧ flagOf x .subtract = x.getLsbD 1 ∧ flagOf x .carry = x.getLsbD 0)

/-! ## The instructions: result, frame and completion -/

/-- R120: NOP is opcode 0x00 and changes no state; its step only moves pc on; every byte of the construction state
decodes as NOP; and a run that falls off its program into zero bytes executes NOPs to 0xFFFF and terminates. -/
def Obligations.NopChangesNothing : Prop :=
  decode 0x00#8 = .nop ∧ Instr.length .nop = 1 ∧
  (∀ s : State, exec .nop s = .next s) ∧
  (∀ s : State, s.status = .running → s.jump = none → s.readByte s.pc = 0x00#8 → s.pc ≠ 0xFFFF#16 →
    step s = .next (s.setPc (s.pc + 1#16))) ∧
  (∀ a, decode (State.reset.readByte a) = .nop) ∧
  (∀ s : State, s.status = .running → s.jump = none → (∀ a : Word, s.pc ≤ a → s.readByte a = 0x00#8) → EndsWell s)

/-- R130: LD r,(HL) loads the byte at the HL address: the memory word at {H, L} under `pair_read`, {H, L} itself under
`direct` (the parameter of the spec's decision D3, log 2), in either byte order (D1, log 1). Nothing else changes. The
pointer word at 0xFFFF wraps by D4 (log 4); for d = F all eight bits are stored by D12 (log 9). -/
def Obligations.LdRegHlLoadsTheByteAtTheHlAddress : Prop :=
  ∀ (s : State) (dst : Reg),
    (let hl : Word := s.readReg .h ++ s.readReg .l
     let addr : Word :=
       match s.cfg.hlAddressMode, s.cfg.wordOrder with
       | .direct, _ => hl
       | .pairRead, .little => s.readByte (hl + 1#16) ++ s.readByte hl
       | .pairRead, .big => s.readByte hl ++ s.readByte (hl + 1#16)
     ∃ t, exec (.ldRHl dst) s = .next t ∧ t.readReg dst = s.readByte addr ∧
       State.sameRegsExcept [dst] s t ∧ State.sameMemExcept [] s t ∧ State.sameFixed s t ∧
       State.sameControl s t ∧ t.pc = s.pc ∧ t.sp = s.sp)

/-- R131 and R134: LD r,r' copies the source register; nothing else changes, and with d = s nothing changes at all. For
d = F all eight bits are stored (the spec's decision D12, log 9). -/
def Obligations.LdRegRegCopiesTheSource : Prop :=
  ∀ (s : State) (dst src : Reg),
    (∃ t, exec (.ldRR dst src) s = .next t ∧ t.readReg dst = s.readReg src ∧
       State.sameRegsExcept [dst] s t ∧ State.sameMemExcept [] s t ∧ State.sameFixed s t ∧
       State.sameControl s t ∧ t.pc = s.pc ∧ t.sp = s.sp) ∧
    (dst = src → exec (.ldRR dst src) s = .next s)

/-- R132: LD r,n loads the byte after the opcode (the operand fetch wraps by the spec's decision D5, log 5); nothing but
the destination and pc changes. For d = F all eight bits are stored by D12 (log 9). -/
def Obligations.LdRegImmLoadsTheImmediateByte : Prop :=
  ∀ (s : State) (dst : Reg),
    ∃ t, exec (.ldRN dst) s = .next t ∧ t.readReg dst = s.readByte (s.pc + 1#16) ∧
      State.sameRegsExcept [dst] s t ∧ State.sameMemExcept [] s t ∧ State.sameFixed s t ∧
      State.sameControl s t ∧ t.pc = s.pc + 1#16 ∧ t.sp = s.sp

/-- R133, R135, R136 (the spec's decision D12, log 9): the three loads with F as destination replace all eight bits of
F, bits 5 and 3 included; opcodes 0x76, 0x70 to 0x77 and 0x36. -/
def Obligations.LoadsIntoFStoreAllEightBits : Prop :=
  decode 0x76#8 = .ldRHl .f ∧ decode 0x36#8 = .ldRN .f ∧
  (∀ y : BitVec 3, y ≠ 0b110#3 → decode (0b01110#5 ++ y) = .ldRR .f (Reg.ofSel y)) ∧
  (∀ (s : State) (v : Byte), s.readByte s.hlAddress = v →
    ∃ t, exec (.ldRHl .f) s = .next t ∧ t.readReg .f = v ∧ t.readReg .a = s.readReg .a) ∧
  (∀ (s : State) (src : Reg), ∃ t, exec (.ldRR .f src) s = .next t ∧ t.readReg .f = s.readReg src ∧
    t.readReg .a = s.readReg .a) ∧
  (∀ (s : State) (v : Byte), s.readByte (s.pc + 1#16) = v →
    ∃ t, exec (.ldRN .f) s = .next t ∧ t.readReg .f = v ∧ t.readReg .a = s.readReg .a)

/-- R151: LD BC,nn and LD DE,nn split nn big-endian into the pair; nothing but the pair and pc changes. The last two
clauses are the rule's example under both byte orders. (Which bytes nn is, is stated in
OperandConsumptionReadsTheFollowingBytes.) -/
def Obligations.LdBcAndDeSplitTheImmediateWord : Prop :=
  (∀ s : State, ∃ t, exec (.ldRrNn .bc) s = .next t ∧
    t.readReg .b = s.immWord.extractLsb' 8 8 ∧ t.readReg .c = s.immWord.extractLsb' 0 8 ∧
    State.sameRegsExcept [.b, .c] s t ∧ State.sameMemExcept [] s t ∧ State.sameFixed s t ∧
    State.sameControl s t ∧ t.sp = s.sp) ∧
  (∀ s : State, ∃ t, exec (.ldRrNn .de) s = .next t ∧
    t.readReg .d = s.immWord.extractLsb' 8 8 ∧ t.readReg .e = s.immWord.extractLsb' 0 8 ∧
    State.sameRegsExcept [.d, .e] s t ∧ State.sameMemExcept [] s t ∧ State.sameFixed s t ∧
    State.sameControl s t ∧ t.sp = s.sp) ∧
  decode 0x01#8 = .ldRrNn .bc ∧ decode 0x11#8 = .ldRrNn .de ∧
  (∀ s : State, s.cfg.wordOrder = .little → s.readByte (s.pc + 1#16) = 0x34#8 → s.readByte (s.pc + 2#16) = 0x12#8 →
    ∃ t, exec (.ldRrNn .bc) s = .next t ∧ t.readReg .b = 0x12#8 ∧ t.readReg .c = 0x34#8) ∧
  (∀ s : State, s.cfg.wordOrder = .big → s.readByte (s.pc + 1#16) = 0x34#8 → s.readByte (s.pc + 2#16) = 0x12#8 →
    ∃ t, exec (.ldRrNn .bc) s = .next t ∧ t.readReg .b = 0x34#8 ∧ t.readReg .c = 0x12#8)

/-- R152: LD HL,nn stores nn, read before the write, as the memory word at {H, L}; H, L, every other register and every
other byte stay. In either byte order the two bytes stored are the two operand bytes, in their order. The operand fetch
wraps by D5 (log 5), the second byte stored wraps by D4 (log 4). -/
def Obligations.LdHlStoresTheImmediateWordAtHl : Prop :=
  ∀ s : State, s.mem.wf = true →
    (let hl : Word := s.readReg .h ++ s.readReg .l
     ∃ t, exec (.ldRrNn .hl) s = .next t ∧
       t.readByte hl = s.readByte (s.pc + 1#16) ∧ t.readByte (hl + 1#16) = s.readByte (s.pc + 2#16) ∧
       t.pairRead .hl = s.immWord ∧
       State.sameRegsExcept [] s t ∧ State.sameMemExcept [hl, hl + 1#16] s t ∧ State.sameFixed s t ∧
       State.sameControl s t ∧ t.pc = s.pc + 2#16 ∧ t.sp = s.sp ∧ t.mem.wf = true)

/-- R62 and R265 (the spec's own inference): the step of LD HL,nn is seen by later fetches: an instruction fetched at
{H, L} or at {H, L} + 1 afterwards is decoded from the operand bytes just stored. The two addresses past {H, L} and pc
wrap by the spec's decisions D4 and D5 (log 4, log 5). -/
def Obligations.BytesStoredByLdHlAreFetchedNext : Prop :=
  ∀ s : State, s.mem.wf = true → s.status = .running → s.jump = none → s.fetchInstr = .ldRrNn .hl →
    (let hl : Word := s.readReg .h ++ s.readReg .l
     ∃ t, step s = .next t ∧
       (t.setPc hl).fetchInstr = decode (s.readByte (s.pc + 1#16)) ∧
       (t.setPc (hl + 1#16)).fetchInstr = decode (s.readByte (s.pc + 2#16)))

/-- R153: LD SP,nn writes nn to sp and nothing else but pc; no other instruction changes sp; no instruction reads it, so
a step from a state with another sp is the same step but for sp. The last clause is the rule's example. -/
def Obligations.LdSpIsTheOnlyUseOfSp : Prop :=
  decode 0x31#8 = .ldRrNn .sp ∧
  (∀ s : State, ∃ t, exec (.ldRrNn .sp) s = .next t ∧ t.sp = s.immWord ∧
    State.sameRegsExcept [] s t ∧ State.sameMemExcept [] s t ∧ State.sameFixed s t ∧ State.sameControl s t) ∧
  (∀ s t : State, step s = .next t → s.fetchInstr ≠ .ldRrNn .sp → t.sp = s.sp) ∧
  (∀ (s : State) (v : Word), s.fetchInstr ≠ .ldRrNn .sp → step (s.setSp v) = mapNext (fun t => t.setSp v) (step s)) ∧
  (∀ (s : State) (v : Word), s.fetchInstr = .ldRrNn .sp → step (s.setSp v) = step s) ∧
  (∀ s : State, s.cfg.wordOrder = .little → s.readByte (s.pc + 1#16) = 0x00#8 → s.readByte (s.pc + 2#16) = 0x80#8 →
    ∃ t, exec (.ldRrNn .sp) s = .next t ∧ t.sp = 0x8000#16)

/-- R179: ADD A,r adds the old value of any register, A and F among them, to A; A and F take the ALU's two outputs and
nothing else changes. That all eight bits of F are replaced is the spec's decision D13 (log 10). -/
def Obligations.AddWritesResultToAAndFlagsToF : Prop :=
  ∀ (s : State) (src : Reg),
    ∃ t, exec (.addAR src) s = .next t ∧
      t.readReg .a = (aluAdd (s.readReg .a) (s.readReg src)).1 ∧
      t.readReg .f = (aluAdd (s.readReg .a) (s.readReg src)).2 ∧
      t.readReg .a = s.readReg .a + s.readReg src ∧
      t.flag .subtract = false ∧ (t.readReg .f).getLsbD 5 = false ∧ (t.readReg .f).getLsbD 3 = false ∧
      State.sameRegsExcept [.a, .f] s t ∧ State.sameMemExcept [] s t ∧ State.sameFixed s t ∧
      State.sameControl s t ∧ t.pc = s.pc ∧ t.sp = s.sp

/-- R180 (the spec's own inference): ADD A,A doubles A, with C = A[7], H = A[3], V = A[7] xor A[6], S = A[6] and
Z = (A & 0x7F = 0). -/
def Obligations.AddAToItselfDoublesA : Prop :=
  ∀ s : State, ∃ t, exec (.addAR .a) s = .next t ∧
    (t.readReg .a).toNat = (2 * (s.readReg .a).toNat) % 256 ∧
    t.flag .carry = (s.readReg .a).getLsbD 7 ∧ t.flag .halfCarry = (s.readReg .a).getLsbD 3 ∧
    t.flag .overflow = ((s.readReg .a).getLsbD 7 ^^ (s.readReg .a).getLsbD 6) ∧
    t.flag .sign = (s.readReg .a).getLsbD 6 ∧
    (t.flag .zero = true ↔ s.readReg .a &&& 0x7F#8 = 0x00#8)

/-- R190: JP nn sets the pending redirect to nn and writes no register, flag or memory byte; its step then goes to nn,
clears the redirect and never terminates, whatever nn is. nn is in the machine's byte order (the parameter of D1, log 1)
and its bytes wrap past 0xFFFF by the spec's decision D5 (log 5). (That executing it also moves pc is the spec's decision D11,
log 14, and no part of this statement.) -/
def Obligations.JpRedirectsToTheImmediateWord : Prop :=
  (∀ s : State, ∃ t, exec .jpNn s = .next t ∧ t.jump = some s.immWord ∧ t.status = s.status ∧
    State.sameRegsExcept [] s t ∧ State.sameMemExcept [] s t ∧ State.sameFixed s t ∧ t.sp = s.sp) ∧
  (∀ s : State, s.status = .running → s.jump = none → s.fetchInstr = .jpNn →
    step s = .next (s.setPc s.immWord))

/-- R231 (the spec's decision D7, log 7): executing an illegal opcode sets status to Faulted(op, pc) and changes nothing
else, pc included; so does its step. -/
def Obligations.IllegalOpcodeFaultsAndChangesNothingElse : Prop :=
  (∀ (s : State) (op : Byte), ∃ t, exec (.illegal op) s = .next t ∧ t.status = .faulted op s.pc ∧
    t.jump = s.jump ∧ t.pc = s.pc ∧ t.sp = s.sp ∧
    State.sameRegsExcept [] s t ∧ State.sameMemExcept [] s t ∧ State.sameFixed s t) ∧
  (∀ (s : State) (op : Byte), s.status = .running → s.fetchInstr = .illegal op →
    step s = .next (s.setStatus (.faulted op s.pc)))

/-! ## The step -/

/-- R100: while Running, a step decodes the byte at pc, executes that instruction, and then: stops there if the
instruction faulted; else moves a pending redirect into pc and clears it; else increments pc; else, at 0xFFFF, ends the
run with pc left there (D20, log 11). That the run loop is the machine's step, untimed and atomic, is the spec's decision
D8 and D15 (log 16); the status a faulting instruction leaves is D7 (log 7). -/
def Obligations.StepRunsTheDecodedInstruction : Prop :=
  ∀ s t : State, s.status = .running → exec (decode (s.readByte s.pc)) s = .next t →
    (∀ op a, t.status = .faulted op a → step s = .next t) ∧
    (∀ a, t.status = .running → t.jump = some a → step s = .next ((t.setPc a).setJump none)) ∧
    (t.status = .running → t.jump = none → t.pc ≠ 0xFFFF#16 → step s = .next (t.setPc (t.pc + 1#16))) ∧
    (t.status = .running → t.jump = none → t.pc = 0xFFFF#16 → step s = .next (t.setStatus .terminated))

/-- R31: a state whose status is not Running has no step. (The fault's name is the model's choice, log 8.) -/
def Obligations.EndedRunHasNoStep : Prop :=
  (∀ s : State, s.status = .terminated → step s = .fault .runTerminated) ∧
  (∀ (s : State) (op : Byte) (a : Word), s.status = .faulted op a → step s = .fault (.runFaulted op a)) ∧
  (∀ s t : State, step s = .next t → s.status = .running)

/-- R51, R78 and R230: no decode, no memory access and no instruction stops the machine: a Running state always has a
next state. That an illegal opcode's step is one, with status Faulted and the opcode's address recorded, is the spec's
decision D7 (log 7). -/
def Obligations.RunningStateAlwaysSteps : Prop :=
  ∀ s : State, s.status = .running → ∃ t, step s = .next t ∧
    (t.status = .running ∨ t.status = .terminated ∨ ∃ op, t.status = .faulted op s.pc)

/-- R105 (derived by the spec): where the next instruction is fetched, per form, and when the run terminates instead.
`L` is the instruction's length. Wrapping is the spec's decision D5 (log 5), pc after termination D20 (log 11). R105's
row of the illegal form says only that the machine faults: that pc then stays and that status records the opcode and its
address is the spec's decision D7 (log 7). -/
def Obligations.NextFetchAddressPerForm : Prop :=
  ∀ s : State, s.status = .running → s.jump = none →
    (∀ i, s.fetchInstr = i → i ≠ .jpNn → i.kind ≠ .ILLEGAL →
      (s.pc + BitVec.ofNat 16 (i.length - 1) ≠ 0xFFFF#16 →
        ∃ t, step s = .next t ∧ t.pc = s.pc + BitVec.ofNat 16 i.length ∧ t.status = .running) ∧
      (s.pc + BitVec.ofNat 16 (i.length - 1) = 0xFFFF#16 →
        ∃ t, step s = .next t ∧ t.pc = 0xFFFF#16 ∧ t.status = .terminated)) ∧
    (s.fetchInstr = .jpNn → ∃ t, step s = .next t ∧ t.pc = s.immWord ∧ t.status = .running) ∧
    (∀ op, s.fetchInstr = .illegal op → ∃ t, step s = .next t ∧ t.pc = s.pc ∧ t.status = .faulted op s.pc)

/-- R103 and R106: a run terminates exactly when no redirect is pending after execution and pc stands at 0xFFFF; no
instruction ends it otherwise. That an operand fetch at 0xFFFF wraps and does not end the run is the spec's decision D5
(log 5). -/
def Obligations.RunTerminatesOnlyByPcOverflow : Prop :=
  ∀ s t : State, s.jump = none → step s = .next t →
    (t.status = .terminated ↔
      s.fetchInstr ≠ .jpNn ∧ s.fetchInstr.kind ≠ .ILLEGAL ∧
      s.pc + BitVec.ofNat 16 (s.fetchInstr.length - 1) = 0xFFFF#16)

/-- R230 and R231: a step faults exactly when the opcode at pc is one of the illegal ones, with that opcode and its
address recorded (the address by the spec's decision D7, log 7). -/
def Obligations.RunFaultsOnlyOnAnIllegalOpcode : Prop :=
  ∀ (s t : State) (op : Byte) (a : Word), step s = .next t →
    (t.status = .faulted op a ↔ s.readByte s.pc = op ∧ isIllegalOpcode op = true ∧ a = s.pc)

/-- R22 and R32: a step changes no register that its instruction does not name as a destination; F, in particular, only
by ADD A,r or a load naming it. -/
def Obligations.StepChangesOnlyDestinationRegisters : Prop :=
  ∀ (s t : State) (q : Reg), step s = .next t → t.readReg q ≠ s.readReg q →
    q ∈ destinations s.fetchInstr ∧
    (q = .f → (∃ src, s.fetchInstr = .addAR src) ∨ s.fetchInstr = .ldRHl .f ∨ (∃ src, s.fetchInstr = .ldRR .f src) ∨
      s.fetchInstr = .ldRN .f)

/-- R52 and R152: LD HL,nn is the only instruction that writes memory, and it writes only the bytes at {H, L} and the
address after it, which wraps at 0xFFFF by the spec's decision D4 (log 4). -/
def Obligations.OnlyLdHlWritesMemory : Prop :=
  ∀ (s t : State) (a : Word), s.mem.wf = true → step s = .next t → t.readByte a ≠ s.readByte a →
    s.fetchInstr = .ldRrNn .hl ∧
    (a = s.readReg .h ++ s.readReg .l ∨ a = (s.readReg .h ++ s.readReg .l : Word) + 1#16)

/-- R28: no instruction reads or writes ix, iy or r: a step from a state with other values there is the same step, and
carries those values along unchanged. That no fetch increments r is the spec's decision D18 (log 12). -/
def Obligations.UnusedRegistersAreNeitherReadNorWritten : Prop :=
  ∀ (s : State) (ix iy : Word) (r : Byte),
    step (s.withUnused ix iy r) = mapNext (fun t => t.withUnused ix iy r) (step s)

/-- R32: no instruction tests a flag. Unless the step is ADD A,F, which reads F as data, a step from a state with another
F is the same step but for F; and F ends either as each began or, where written, the same. That ADD replaces all of F is
the spec's decision D13 (log 10). -/
def Obligations.FlagsAreNeverTested : Prop :=
  ∀ (s t : State) (v : Byte), s.fetchInstr ≠ .addAR .f → step s = .next t →
    ∃ w, step (s.writeReg .f v) = .next (t.writeReg .f w) ∧
      ((w = v ∧ t.readReg .f = s.readReg .f) ∨ w = t.readReg .f)

/-- R52, R56 and R76: a step depends on memory only through the bytes it reads: the opcode, its operand bytes, and for
LD r,(HL) the pointer word and the data byte. From a memory that agrees on those, the step is the same; each byte ends
either written alike in both runs or as it began in each. Which bytes are read follows the parameters D1 and D3 (log 1,
log 2), and their addresses wrap by the spec's decisions D4 and D5 (log 4, log 5). -/
def Obligations.StepReadsOnlyTheBytesItsFormReads : Prop :=
  ∀ (s t : State) (m : Memory), s.mem.wf = true → m.wf = true → (∀ a ∈ s.readSet, m.read a = s.readByte a) →
    step s = .next t →
      ∃ m', step (s.withMem m) = .next (t.withMem m') ∧
        ∀ a, m'.read a = t.readByte a ∨ (m'.read a = m.read a ∧ t.readByte a = s.readByte a)

/-! ## Runs -/

/-- R106 (derived by the spec): a JP whose target is its own address runs forever; it is not a termination. -/
def Obligations.JumpToItselfRunsForever : Prop :=
  ∀ s : State, s.status = .running → s.jump = none → s.fetchInstr = .jpNn → s.immWord = s.pc → NeverEnds s

/-- R120's corner case and R103: from any pc with only zero bytes from there to 0xFFFF, the run takes one NOP step for
each remaining address and ends Terminated with pc = 0xFFFF (D20, log 11), nothing else changed. -/
def Obligations.ZeroBytesRunToTermination : Prop :=
  ∀ s : State, s.status = .running → s.jump = none → (∀ a : Word, s.pc ≤ a → s.readByte a = 0x00#8) →
    runsTo s (65536 - s.pc.toNat) ((s.setPc 0xFFFF#16).setStatus .terminated)

/-- R107 (the spec's decision D7): every run from a Running state ends well, ends badly or does not end, and no two of
these; a bad end has one opcode and one address, and from a state of the run invariant that opcode is illegal. -/
def Obligations.RunEndsInExactlyOneWay : Prop :=
  ∀ s : State, s.status = .running →
    (EndsWell s ∨ (∃ op a, EndsBadly s op a) ∨ NeverEnds s) ∧
    ¬ (EndsWell s ∧ NeverEnds s) ∧
    (∀ op a, ¬ (EndsWell s ∧ EndsBadly s op a)) ∧
    (∀ op a, ¬ (EndsBadly s op a ∧ NeverEnds s)) ∧
    (∀ op a op' a', EndsBadly s op a → EndsBadly s op' a' → op = op' ∧ a = a') ∧
    (∀ op a, s.Inv → EndsBadly s op a → isIllegalOpcode op = true)

/-! ## Disassembly text -/

/-- R201, R203 and R205: the lowercase register and pair names; the Static text of each form, which no state enters; and
the forms without an operand to show (NOP, LD r,r', ADD A,r and, by R231's corner case too, an illegal opcode), whose
Dynamic text is the Static one. The texts the source does not give are the spec's decision D14 (log 18). -/
def Obligations.StaticTextOfEachForm : Prop :=
  (Reg.name .b = ['b'] ∧ Reg.name .c = ['c'] ∧ Reg.name .d = ['d'] ∧ Reg.name .e = ['e'] ∧ Reg.name .h = ['h'] ∧
    Reg.name .l = ['l'] ∧ Reg.name .f = ['f'] ∧ Reg.name .a = ['a']) ∧
  (RegPair.name .bc = ['b', 'c'] ∧ RegPair.name .de = ['d', 'e'] ∧ RegPair.name .hl = ['h', 'l'] ∧
    RegPair.name .sp = ['s', 'p']) ∧
  disassemble .static .nop = ['n', 'o', 'p'] ∧
  (∀ dst : Reg, disassemble .static (.ldRHl dst) = ['l', 'd', ' '] ++ dst.name ++ [',', ' ', '(', 'h', 'l', ')']) ∧
  (∀ dst src : Reg, disassemble .static (.ldRR dst src) = ['l', 'd', ' '] ++ dst.name ++ [',', ' '] ++ src.name) ∧
  (∀ dst : Reg, disassemble .static (.ldRN dst) = ['l', 'd', ' '] ++ dst.name ++ [',', ' ', 'n']) ∧
  (∀ p : RegPair, disassemble .static (.ldRrNn p) = ['l', 'd', ' '] ++ p.name ++ [',', ' ', 'n', 'n']) ∧
  (∀ src : Reg, disassemble .static (.addAR src) = ['a', 'd', 'd', ' ', 'a', ',', ' '] ++ src.name) ∧
  disassemble .static .jpNn = ['j', 'p', ' ', 'n', 'n'] ∧
  (∀ op : Byte, disassemble .static (.illegal op) = ['i', 'l', 'l', 'e', 'g', 'a', 'l']) ∧
  (∀ s : State, disassemble (.dynamic s) .nop = disassemble .static .nop) ∧
  (∀ (s : State) (dst src : Reg), disassemble (.dynamic s) (.ldRR dst src) = disassemble .static (.ldRR dst src)) ∧
  (∀ (s : State) (src : Reg), disassemble (.dynamic s) (.addAR src) = disassemble .static (.addAR src)) ∧
  (∀ (s : State) (op : Byte), disassemble (.dynamic s) (.illegal op) = disassemble .static (.illegal op))

/-- R202 and R206: the text of a step is the Dynamic text of the instruction at pc, rendered before executing, and shows
the very operand the execution then uses: the immediate byte of LD r,n, the immediate word of LD rr,nn and JP nn, the
address LD r,(HL) loads from (by the parameters of D3 and D1, log 2 and log 1; the pointer word at 0xFFFF wraps by D4,
log 4; operand bytes wrap by D5, log 5). Of LD r,n, LD rr,nn and JP nn the source gives only the mnemonic and the shapes
$xx and $xxxx: their texts, and that the two or four digits are lowercase and zero-padded, are the spec's decision D14
(log 18). -/
def Obligations.DynamicTextShowsTheOperandExecuted : Prop :=
  (let digits : List Char := ['0', '1', '2', '3', '4', '5', '6', '7', '8', '9', 'a', 'b', 'c', 'd', 'e', 'f']
   (∀ v : Byte, (hex2 v).map some = [digits[v.toNat / 16]?, digits[v.toNat % 16]?]) ∧
   (∀ v : Word, (hex4 v).map some =
     [digits[v.toNat / 4096]?, digits[v.toNat / 256 % 16]?, digits[v.toNat / 16 % 16]?, digits[v.toNat % 16]?])) ∧
  (∀ s : State, s.stepText = disassemble (.dynamic s) (decode (s.readByte s.pc))) ∧
  (∀ (s : State) (dst : Reg), ∃ t, exec (.ldRN dst) s = .next t ∧
    disassemble (.dynamic s) (.ldRN dst) = ['l', 'd', ' '] ++ dst.name ++ [',', ' ', '$'] ++ hex2 (t.readReg dst)) ∧
  (∀ s : State, ∃ t v, exec .jpNn s = .next t ∧ t.jump = some v ∧
    disassemble (.dynamic s) .jpNn = ['j', 'p', ' ', '$'] ++ hex4 v) ∧
  (∀ (s : State) (p : RegPair), s.mem.wf = true → ∃ t, exec (.ldRrNn p) s = .next t ∧
    disassemble (.dynamic s) (.ldRrNn p) = ['l', 'd', ' '] ++ p.name ++ [',', ' ', '$'] ++ hex4 (t.pairRead p)) ∧
  (∀ (s : State) (dst : Reg),
    let hl : Word := s.readReg .h ++ s.readReg .l
    let addr : Word :=
      match s.cfg.hlAddressMode, s.cfg.wordOrder with
      | .direct, _ => hl
      | .pairRead, .little => s.readByte (hl + 1#16) ++ s.readByte hl
      | .pairRead, .big => s.readByte hl ++ s.readByte (hl + 1#16)
    ∃ t, exec (.ldRHl dst) s = .next t ∧ t.readReg dst = s.readByte addr ∧ addr = s.hlAddress ∧
      disassemble (.dynamic s) (.ldRHl dst) = ['l', 'd', ' '] ++ dst.name ++ [',', ' ', '@'] ++ hex4 addr)
end

