-- ==== Sys2Proof/Laws/Decode.lean ====
section
/-! SUPPORT. Selectors and their tables undo each other. -/

namespace Sys2Proof

@[simp] theorem Reg.ofSel_sel (q : Reg) : Reg.ofSel q.sel = q := by cases q <;> rfl

@[simp] theorem Reg.sel_ofSel (x : BitVec 3) : (Reg.ofSel x).sel = x := by revert x; decide

@[simp] theorem RegPair.ofSel_sel (p : RegPair) : RegPair.ofSel p.sel = p := by cases p <;> rfl

@[simp] theorem RegPair.sel_ofSel (x : BitVec 2) : (RegPair.ofSel x).sel = x := by revert x; decide

/-- Selectors name registers one to one. -/
theorem Reg.ofSel_injective : Function.Injective Reg.ofSel := fun x y h => by
  rw [← Reg.sel_ofSel x, ← Reg.sel_ofSel y, h]

/-- An illegal-opcode entry carries its own opcode (30_encoding.md R75). -/
theorem eq_of_decode_illegal {op x : Byte} (h : decode op = .illegal x) : x = op := by
  revert h
  unfold decode
  split_ifs <;> simp
  exact fun h => h.symm

end Sys2Proof
end

