-- ==== Sys2Proof/Laws/Words.lean ====
section
/-! SUPPORT. The byte and word helpers: splitting a word and joining two bytes undo each other, in both byte orders. -/

namespace Sys2Proof.Machine

/-- `{hi, lo} = hi*256 + lo` (00_scope.md R8). -/
theorem joinBytes_toNat (x y : Byte) : (joinBytes x y).toNat = x.toNat * 256 + y.toNat := by
  have h : (joinBytes x y).toNat = x.toNat <<< 8 ||| y.toNat := BitVec.toNat_append x y
  rw [h, ← Nat.shiftLeft_add_eq_or_of_lt y.isLt, Nat.shiftLeft_eq]

theorem hiByte_toNat (v : Word) : (hiByte v).toNat = v.toNat / 256 := by
  have := v.isLt
  simp only [hiByte, BitVec.extractLsb'_toNat, Nat.shiftRight_eq_div_pow]
  omega

theorem loByte_toNat (v : Word) : (loByte v).toNat = v.toNat % 256 := by
  simp [loByte, BitVec.extractLsb'_toNat]

@[simp] theorem hiByte_joinBytes (x y : Byte) : hiByte (joinBytes x y) = x := by
  have := y.isLt
  apply BitVec.eq_of_toNat_eq
  rw [hiByte_toNat, joinBytes_toNat]; omega

@[simp] theorem loByte_joinBytes (x y : Byte) : loByte (joinBytes x y) = y := by
  have := y.isLt
  apply BitVec.eq_of_toNat_eq
  rw [loByte_toNat, joinBytes_toNat]; omega

@[simp] theorem joinBytes_hiByte_loByte (v : Word) : joinBytes (hiByte v) (loByte v) = v := by
  apply BitVec.eq_of_toNat_eq
  rw [joinBytes_toNat, hiByte_toNat, loByte_toNat]; omega

@[simp] theorem lowAddrByte_wordOfBytes (o : WordOrder) (x y : Byte) : lowAddrByte o (wordOfBytes o x y) = x := by
  cases o <;> simp [lowAddrByte, wordOfBytes]

@[simp] theorem highAddrByte_wordOfBytes (o : WordOrder) (x y : Byte) : highAddrByte o (wordOfBytes o x y) = y := by
  cases o <;> simp [highAddrByte, wordOfBytes]

@[simp] theorem wordOfBytes_addrBytes (o : WordOrder) (v : Word) :
    wordOfBytes o (lowAddrByte o v) (highAddrByte o v) = v := by
  cases o <;> simp [lowAddrByte, highAddrByte, wordOfBytes]

/-- The two bytes of a word access stand at different addresses, the wrap included. -/
@[simp] theorem succ_ne_self (a : Word) : a + 1#16 ≠ a := by
  intro h; have := congrArg BitVec.toNat h; simp [BitVec.toNat_add] at this; omega

@[simp] theorem self_ne_succ (a : Word) : a ≠ a + 1#16 := fun h => succ_ne_self a h.symm

end Sys2Proof.Machine
end

