-- ==== Sys2Proof/Laws/Memory.lean ====
section
/-! SUPPORT. Memory: reading after writing, and that every memory operation keeps the canonical form. -/

namespace Sys2Proof.Machine

/-- A canonical memory whose cells start at `lo` lists nothing below `lo`. -/
theorem Memory.lookup_below {m : Memory} {lo k : Nat} (h : Memory.wfFrom lo m = true) (hk : k < lo) :
    m.lookup k = unlistedByte := by
  induction m generalizing lo with
  | nil => rfl
  | cons c m ih =>
    obtain ⟨j, x⟩ := c
    simp only [Memory.wfFrom, Bool.and_eq_true, decide_eq_true_eq] at h
    obtain ⟨⟨⟨hlo, -⟩, -⟩, hm⟩ := h
    simp only [Memory.lookup]
    rw [if_neg (by omega)]
    exact ih hm (by omega)

/-- Storing keeps the canonical form. -/
theorem Memory.store_wfFrom {m : Memory} {lo k : Nat} (v : Byte) (h : Memory.wfFrom lo m = true) (hlo : lo ≤ k)
    (hk : k < 65536) : Memory.wfFrom lo (m.store k v) = true := by
  induction m generalizing lo with
  | nil => by_cases hv : v = unlistedByte <;> simp [Memory.store, Memory.wfFrom, hv, hlo, hk]
  | cons c m ih =>
    obtain ⟨j, x⟩ := c
    simp only [Memory.wfFrom, Bool.and_eq_true, decide_eq_true_eq] at h
    obtain ⟨⟨⟨hj, hjb⟩, hx⟩, hm⟩ := h
    simp only [Memory.store]
    split_ifs with h1 hv h2 hv
    · simp [Memory.wfFrom, hj, hjb, hx, hm]
    · have : k + 1 ≤ j := h1
      simp [Memory.wfFrom, hlo, hk, hv, this, hjb, hx, hm]
    · subst h2
      cases m with
      | nil => rfl
      | cons c' m' =>
        obtain ⟨j', x'⟩ := c'
        simp only [Memory.wfFrom, Bool.and_eq_true, decide_eq_true_eq] at hm ⊢
        exact ⟨⟨⟨by omega, hm.1.1.2⟩, hm.1.2⟩, hm.2⟩
    · subst h2
      simp [Memory.wfFrom, hlo, hk, hv, hm]
    · simp [Memory.wfFrom, hj, hjb, hx, ih hm (by omega)]

/-- The cell stored reads as the value stored, and every other cell reads as before. -/
theorem Memory.lookup_store {m : Memory} {lo : Nat} (h : Memory.wfFrom lo m = true) (k i : Nat) (v : Byte) :
    (m.store k v).lookup i = if i = k then v else m.lookup i := by
  induction m generalizing lo with
  | nil =>
    simp only [Memory.store]
    split_ifs with hv hi hi
    · rw [hv]; rfl
    · rfl
    · simp [Memory.lookup, hi]
    · simp [Memory.lookup, Ne.symm hi]
  | cons c m ih =>
    obtain ⟨j, x⟩ := c
    simp only [Memory.wfFrom, Bool.and_eq_true, decide_eq_true_eq] at h
    obtain ⟨⟨⟨hj, -⟩, -⟩, hm⟩ := h
    simp only [Memory.store]
    split_ifs with h1 hv hi hi h2 hv hi hi hi
    · subst hi
      rw [Memory.lookup, if_neg (by omega), Memory.lookup_below hm (by omega), hv]
    · rfl
    · simp [Memory.lookup, hi]
    · simp [Memory.lookup, Ne.symm hi]
    · subst h2; subst hi; rw [Memory.lookup_below hm (by omega), hv]
    · subst h2; simp [Memory.lookup, Ne.symm hi]
    · simp [Memory.lookup, hi]
    · subst h2; simp [Memory.lookup, Ne.symm hi]
    · subst hi; rw [Memory.lookup, if_neg (by omega), ih hm, if_pos rfl]
    · rw [Memory.lookup, Memory.lookup, ih hm, if_neg hi]

/-- Writing a byte keeps the canonical form. -/
theorem Memory.write_wf {m : Memory} (h : m.wf = true) (a : Word) (v : Byte) : (m.write a v).wf = true :=
  Memory.store_wfFrom v h (Nat.zero_le _) a.isLt

/-- Reading after writing a byte. -/
theorem Memory.read_write {m : Memory} (h : m.wf = true) (a b : Word) (v : Byte) :
    (m.write a v).read b = if b = a then v else m.read b := by
  unfold Memory.read Memory.write
  rw [Memory.lookup_store h]
  simp [BitVec.toNat_inj]

/-- The memory of the construction state is canonical. -/
theorem Memory.nil_wf : Memory.wf [] = true := rfl

end Sys2Proof.Machine
end

