-- ==== Sys2Proof/Laws/State.lean ====
section
/-! SUPPORT. One lemma per field per update of the state, and what each update does to the reads of registers and
memory, so that no proof unfolds a record update. -/

namespace Sys2Proof.Machine

/-! ## writeByte -/

@[simp] theorem State.writeByte_regs (s : State) (a : Word) (v : Byte) : (s.writeByte a v).regs = s.regs := rfl
@[simp] theorem State.writeByte_pc (s : State) (a : Word) (v : Byte) : (s.writeByte a v).pc = s.pc := rfl
@[simp] theorem State.writeByte_sp (s : State) (a : Word) (v : Byte) : (s.writeByte a v).sp = s.sp := rfl
@[simp] theorem State.writeByte_ix (s : State) (a : Word) (v : Byte) : (s.writeByte a v).ix = s.ix := rfl
@[simp] theorem State.writeByte_iy (s : State) (a : Word) (v : Byte) : (s.writeByte a v).iy = s.iy := rfl
@[simp] theorem State.writeByte_r (s : State) (a : Word) (v : Byte) : (s.writeByte a v).r = s.r := rfl
@[simp] theorem State.writeByte_mem (s : State) (a : Word) (v : Byte) : (s.writeByte a v).mem = s.mem.write a v := rfl
@[simp] theorem State.writeByte_jump (s : State) (a : Word) (v : Byte) : (s.writeByte a v).jump = s.jump := rfl
@[simp] theorem State.writeByte_status (s : State) (a : Word) (v : Byte) : (s.writeByte a v).status = s.status := rfl
@[simp] theorem State.writeByte_cfg (s : State) (a : Word) (v : Byte) : (s.writeByte a v).cfg = s.cfg := rfl
@[simp] theorem State.writeByte_readReg (s : State) (a : Word) (v : Byte) (p : Reg) : (s.writeByte a v).readReg p = s.readReg p := rfl

/-! ## writeReg -/

@[simp] theorem State.writeReg_regs (s : State) (q : Reg) (v : Byte) : (s.writeReg q v).regs = s.regs.set q v := rfl
@[simp] theorem State.writeReg_pc (s : State) (q : Reg) (v : Byte) : (s.writeReg q v).pc = s.pc := rfl
@[simp] theorem State.writeReg_sp (s : State) (q : Reg) (v : Byte) : (s.writeReg q v).sp = s.sp := rfl
@[simp] theorem State.writeReg_ix (s : State) (q : Reg) (v : Byte) : (s.writeReg q v).ix = s.ix := rfl
@[simp] theorem State.writeReg_iy (s : State) (q : Reg) (v : Byte) : (s.writeReg q v).iy = s.iy := rfl
@[simp] theorem State.writeReg_r (s : State) (q : Reg) (v : Byte) : (s.writeReg q v).r = s.r := rfl
@[simp] theorem State.writeReg_mem (s : State) (q : Reg) (v : Byte) : (s.writeReg q v).mem = s.mem := rfl
@[simp] theorem State.writeReg_jump (s : State) (q : Reg) (v : Byte) : (s.writeReg q v).jump = s.jump := rfl
@[simp] theorem State.writeReg_status (s : State) (q : Reg) (v : Byte) : (s.writeReg q v).status = s.status := rfl
@[simp] theorem State.writeReg_cfg (s : State) (q : Reg) (v : Byte) : (s.writeReg q v).cfg = s.cfg := rfl
@[simp] theorem State.writeReg_readByte (s : State) (q : Reg) (v : Byte) (x : Word) : (s.writeReg q v).readByte x = s.readByte x := rfl

/-! ## setPc -/

@[simp] theorem State.setPc_regs (s : State) (v : Word) : (s.setPc v).regs = s.regs := rfl
@[simp] theorem State.setPc_pc (s : State) (v : Word) : (s.setPc v).pc = v := rfl
@[simp] theorem State.setPc_sp (s : State) (v : Word) : (s.setPc v).sp = s.sp := rfl
@[simp] theorem State.setPc_ix (s : State) (v : Word) : (s.setPc v).ix = s.ix := rfl
@[simp] theorem State.setPc_iy (s : State) (v : Word) : (s.setPc v).iy = s.iy := rfl
@[simp] theorem State.setPc_r (s : State) (v : Word) : (s.setPc v).r = s.r := rfl
@[simp] theorem State.setPc_mem (s : State) (v : Word) : (s.setPc v).mem = s.mem := rfl
@[simp] theorem State.setPc_jump (s : State) (v : Word) : (s.setPc v).jump = s.jump := rfl
@[simp] theorem State.setPc_status (s : State) (v : Word) : (s.setPc v).status = s.status := rfl
@[simp] theorem State.setPc_cfg (s : State) (v : Word) : (s.setPc v).cfg = s.cfg := rfl
@[simp] theorem State.setPc_readReg (s : State) (v : Word) (p : Reg) : (s.setPc v).readReg p = s.readReg p := rfl
@[simp] theorem State.setPc_readByte (s : State) (v : Word) (x : Word) : (s.setPc v).readByte x = s.readByte x := rfl

/-! ## setSp -/

@[simp] theorem State.setSp_regs (s : State) (v : Word) : (s.setSp v).regs = s.regs := rfl
@[simp] theorem State.setSp_pc (s : State) (v : Word) : (s.setSp v).pc = s.pc := rfl
@[simp] theorem State.setSp_sp (s : State) (v : Word) : (s.setSp v).sp = v := rfl
@[simp] theorem State.setSp_ix (s : State) (v : Word) : (s.setSp v).ix = s.ix := rfl
@[simp] theorem State.setSp_iy (s : State) (v : Word) : (s.setSp v).iy = s.iy := rfl
@[simp] theorem State.setSp_r (s : State) (v : Word) : (s.setSp v).r = s.r := rfl
@[simp] theorem State.setSp_mem (s : State) (v : Word) : (s.setSp v).mem = s.mem := rfl
@[simp] theorem State.setSp_jump (s : State) (v : Word) : (s.setSp v).jump = s.jump := rfl
@[simp] theorem State.setSp_status (s : State) (v : Word) : (s.setSp v).status = s.status := rfl
@[simp] theorem State.setSp_cfg (s : State) (v : Word) : (s.setSp v).cfg = s.cfg := rfl
@[simp] theorem State.setSp_readReg (s : State) (v : Word) (p : Reg) : (s.setSp v).readReg p = s.readReg p := rfl
@[simp] theorem State.setSp_readByte (s : State) (v : Word) (x : Word) : (s.setSp v).readByte x = s.readByte x := rfl

/-! ## setJump -/

@[simp] theorem State.setJump_regs (s : State) (v : Option Word) : (s.setJump v).regs = s.regs := rfl
@[simp] theorem State.setJump_pc (s : State) (v : Option Word) : (s.setJump v).pc = s.pc := rfl
@[simp] theorem State.setJump_sp (s : State) (v : Option Word) : (s.setJump v).sp = s.sp := rfl
@[simp] theorem State.setJump_ix (s : State) (v : Option Word) : (s.setJump v).ix = s.ix := rfl
@[simp] theorem State.setJump_iy (s : State) (v : Option Word) : (s.setJump v).iy = s.iy := rfl
@[simp] theorem State.setJump_r (s : State) (v : Option Word) : (s.setJump v).r = s.r := rfl
@[simp] theorem State.setJump_mem (s : State) (v : Option Word) : (s.setJump v).mem = s.mem := rfl
@[simp] theorem State.setJump_jump (s : State) (v : Option Word) : (s.setJump v).jump = v := rfl
@[simp] theorem State.setJump_status (s : State) (v : Option Word) : (s.setJump v).status = s.status := rfl
@[simp] theorem State.setJump_cfg (s : State) (v : Option Word) : (s.setJump v).cfg = s.cfg := rfl
@[simp] theorem State.setJump_readReg (s : State) (v : Option Word) (p : Reg) : (s.setJump v).readReg p = s.readReg p := rfl
@[simp] theorem State.setJump_readByte (s : State) (v : Option Word) (x : Word) : (s.setJump v).readByte x = s.readByte x := rfl

/-! ## setStatus -/

@[simp] theorem State.setStatus_regs (s : State) (v : Status) : (s.setStatus v).regs = s.regs := rfl
@[simp] theorem State.setStatus_pc (s : State) (v : Status) : (s.setStatus v).pc = s.pc := rfl
@[simp] theorem State.setStatus_sp (s : State) (v : Status) : (s.setStatus v).sp = s.sp := rfl
@[simp] theorem State.setStatus_ix (s : State) (v : Status) : (s.setStatus v).ix = s.ix := rfl
@[simp] theorem State.setStatus_iy (s : State) (v : Status) : (s.setStatus v).iy = s.iy := rfl
@[simp] theorem State.setStatus_r (s : State) (v : Status) : (s.setStatus v).r = s.r := rfl
@[simp] theorem State.setStatus_mem (s : State) (v : Status) : (s.setStatus v).mem = s.mem := rfl
@[simp] theorem State.setStatus_jump (s : State) (v : Status) : (s.setStatus v).jump = s.jump := rfl
@[simp] theorem State.setStatus_status (s : State) (v : Status) : (s.setStatus v).status = v := rfl
@[simp] theorem State.setStatus_cfg (s : State) (v : Status) : (s.setStatus v).cfg = s.cfg := rfl
@[simp] theorem State.setStatus_readReg (s : State) (v : Status) (p : Reg) : (s.setStatus v).readReg p = s.readReg p := rfl
@[simp] theorem State.setStatus_readByte (s : State) (v : Status) (x : Word) : (s.setStatus v).readByte x = s.readByte x := rfl

/-! ## withMem -/

@[simp] theorem State.withMem_regs (s : State) (m : Memory) : (s.withMem m).regs = s.regs := rfl
@[simp] theorem State.withMem_pc (s : State) (m : Memory) : (s.withMem m).pc = s.pc := rfl
@[simp] theorem State.withMem_sp (s : State) (m : Memory) : (s.withMem m).sp = s.sp := rfl
@[simp] theorem State.withMem_ix (s : State) (m : Memory) : (s.withMem m).ix = s.ix := rfl
@[simp] theorem State.withMem_iy (s : State) (m : Memory) : (s.withMem m).iy = s.iy := rfl
@[simp] theorem State.withMem_r (s : State) (m : Memory) : (s.withMem m).r = s.r := rfl
@[simp] theorem State.withMem_mem (s : State) (m : Memory) : (s.withMem m).mem = m := rfl
@[simp] theorem State.withMem_jump (s : State) (m : Memory) : (s.withMem m).jump = s.jump := rfl
@[simp] theorem State.withMem_status (s : State) (m : Memory) : (s.withMem m).status = s.status := rfl
@[simp] theorem State.withMem_cfg (s : State) (m : Memory) : (s.withMem m).cfg = s.cfg := rfl
@[simp] theorem State.withMem_readReg (s : State) (m : Memory) (p : Reg) : (s.withMem m).readReg p = s.readReg p := rfl
@[simp] theorem State.withMem_readByte (s : State) (m : Memory) (x : Word) : (s.withMem m).readByte x = m.read x := rfl

/-! ## withUnused -/

@[simp] theorem State.withUnused_regs (s : State) (x y : Word) (z : Byte) : (s.withUnused x y z).regs = s.regs := rfl
@[simp] theorem State.withUnused_pc (s : State) (x y : Word) (z : Byte) : (s.withUnused x y z).pc = s.pc := rfl
@[simp] theorem State.withUnused_sp (s : State) (x y : Word) (z : Byte) : (s.withUnused x y z).sp = s.sp := rfl
@[simp] theorem State.withUnused_ix (s : State) (x y : Word) (z : Byte) : (s.withUnused x y z).ix = x := rfl
@[simp] theorem State.withUnused_iy (s : State) (x y : Word) (z : Byte) : (s.withUnused x y z).iy = y := rfl
@[simp] theorem State.withUnused_r (s : State) (x y : Word) (z : Byte) : (s.withUnused x y z).r = z := rfl
@[simp] theorem State.withUnused_mem (s : State) (x y : Word) (z : Byte) : (s.withUnused x y z).mem = s.mem := rfl
@[simp] theorem State.withUnused_jump (s : State) (x y : Word) (z : Byte) : (s.withUnused x y z).jump = s.jump := rfl
@[simp] theorem State.withUnused_status (s : State) (x y : Word) (z : Byte) : (s.withUnused x y z).status = s.status := rfl
@[simp] theorem State.withUnused_cfg (s : State) (x y : Word) (z : Byte) : (s.withUnused x y z).cfg = s.cfg := rfl
@[simp] theorem State.withUnused_readReg (s : State) (x y : Word) (z : Byte) (p : Reg) : (s.withUnused x y z).readReg p = s.readReg p := rfl
@[simp] theorem State.withUnused_readByte (s : State) (x y : Word) (z : Byte) (a : Word) : (s.withUnused x y z).readByte a = s.readByte a := rfl

/-! ## Updates in a row -/

@[simp] theorem State.setPc_setPc (s : State) (v w : Word) : (s.setPc v).setPc w = s.setPc w := rfl
@[simp] theorem State.setPc_self (s : State) : s.setPc s.pc = s := rfl
@[simp] theorem State.setSp_setSp (s : State) (v w : Word) : (s.setSp v).setSp w = s.setSp w := rfl

/-- Two states with equal fields are equal. -/
theorem State.eq_of_fields {s t : State} (h1 : t.regs = s.regs) (h2 : t.pc = s.pc) (h3 : t.sp = s.sp) (h4 : t.ix = s.ix)
    (h5 : t.iy = s.iy) (h6 : t.r = s.r) (h7 : t.mem = s.mem) (h8 : t.jump = s.jump) (h9 : t.status = s.status)
    (h10 : t.cfg = s.cfg) : t = s := by
  cases s; cases t; simp_all

end Sys2Proof.Machine
end

