-- ==== Sys2Proof/Laws/Regs.lean ====
section
/-! SUPPORT. Registers, words and pairs on the machine state: what each shared operation reads and writes. -/

namespace Sys2Proof.Machine

/-! ## Registers -/

theorem RegFile.get_set (rf : RegFile) (p q : Reg) (v : Byte) :
    (rf.set q v).get p = if p = q then v else rf.get p := by
  cases q <;> cases p <;> rfl

@[simp] theorem RegFile.set_get_self (rf : RegFile) (q : Reg) : rf.set q (rf.get q) = rf := by
  cases q <;> rfl

/-- Two register files that read alike are equal. -/
theorem RegFile.eq_of_get {x y : RegFile} (h : ∀ q, x.get q = y.get q) : x = y := by
  cases x; cases y
  simp only [RegFile.mk.injEq]
  exact ⟨h .b, h .c, h .d, h .e, h .h, h .l, h .f, h .a⟩

theorem State.writeReg_readReg (s : State) (p q : Reg) (v : Byte) :
    (s.writeReg q v).readReg p = if p = q then v else s.readReg p := RegFile.get_set _ _ _ _

@[simp] theorem State.writeReg_readReg_same (s : State) (q : Reg) (v : Byte) : (s.writeReg q v).readReg q = v := by
  rw [State.writeReg_readReg, if_pos rfl]

theorem State.writeReg_readReg_other {p q : Reg} (s : State) (v : Byte) (h : p ≠ q) :
    (s.writeReg q v).readReg p = s.readReg p := by
  rw [State.writeReg_readReg, if_neg h]

@[simp] theorem State.writeReg_self (s : State) (q : Reg) : s.writeReg q (s.readReg q) = s := by
  simp [State.writeReg, State.readReg]

/-! ## Bytes and words in memory -/

theorem State.writeByte_readByte {s : State} (h : s.mem.wf = true) (a b : Word) (v : Byte) :
    (s.writeByte a v).readByte b = if b = a then v else s.readByte b := Memory.read_write h a b v

theorem State.writeByte_wf {s : State} (h : s.mem.wf = true) (a : Word) (v : Byte) :
    (s.writeByte a v).mem.wf = true := Memory.write_wf h a v

/-- A word write changes memory and nothing else. -/
theorem State.writeWord_eq_withMem (s : State) (a v : Word) : s.writeWord a v = s.withMem (s.writeWord a v).mem := rfl

theorem State.writeWord_wf {s : State} (h : s.mem.wf = true) (a v : Word) : (s.writeWord a v).mem.wf = true :=
  Memory.write_wf (Memory.write_wf h _ _) _ _

/-- Every byte after a word write. -/
theorem State.writeWord_readByte {s : State} (h : s.mem.wf = true) (a v b : Word) :
    (s.writeWord a v).readByte b =
      if b = a + 1#16 then highAddrByte s.cfg.wordOrder v
      else if b = a then lowAddrByte s.cfg.wordOrder v else s.readByte b := by
  unfold State.writeWord
  rw [State.writeByte_readByte (State.writeByte_wf h _ _), State.writeByte_readByte h]

/-! ## Pairs -/

@[simp] theorem State.pairWrite_cfg (s : State) (p : RegPair) (v : Word) : (s.pairWrite p v).cfg = s.cfg := by
  cases p <;> rfl
@[simp] theorem State.pairWrite_pc (s : State) (p : RegPair) (v : Word) : (s.pairWrite p v).pc = s.pc := by
  cases p <;> rfl
@[simp] theorem State.pairWrite_ix (s : State) (p : RegPair) (v : Word) : (s.pairWrite p v).ix = s.ix := by
  cases p <;> rfl
@[simp] theorem State.pairWrite_iy (s : State) (p : RegPair) (v : Word) : (s.pairWrite p v).iy = s.iy := by
  cases p <;> rfl
@[simp] theorem State.pairWrite_r (s : State) (p : RegPair) (v : Word) : (s.pairWrite p v).r = s.r := by
  cases p <;> rfl
@[simp] theorem State.pairWrite_jump (s : State) (p : RegPair) (v : Word) : (s.pairWrite p v).jump = s.jump := by
  cases p <;> rfl
@[simp] theorem State.pairWrite_status (s : State) (p : RegPair) (v : Word) :
    (s.pairWrite p v).status = s.status := by
  cases p <;> rfl

theorem State.pairWrite_wf {s : State} (h : s.mem.wf = true) (p : RegPair) (v : Word) :
    (s.pairWrite p v).mem.wf = true := by
  cases p
  · exact h
  · exact h
  · exact State.writeWord_wf h _ _
  · exact h

/-! ## Loading bytes -/

/-- Loading bytes changes memory and nothing else. -/
theorem State.loadBytes_eq_withMem (s : State) (a : Word) (vs : List Byte) :
    s.loadBytes a vs = s.withMem (s.loadBytes a vs).mem := by
  induction vs generalizing s a with
  | nil => rfl
  | cons v vs ih =>
    simp only [State.loadBytes]
    rw [ih]
    rfl

theorem State.loadBytes_wf {s : State} (h : s.mem.wf = true) (a : Word) (vs : List Byte) :
    (s.loadBytes a vs).mem.wf = true := by
  induction vs generalizing s a with
  | nil => exact h
  | cons v vs ih => exact ih (State.writeByte_wf h a v) (a + 1#16)

end Sys2Proof.Machine
end

