-- ==== Sys2Proof/Laws/Operands.lean ====
section
/-! SUPPORT. The operand forms in one equation each. -/

namespace Sys2Proof.Machine

theorem State.consume8_eq (s : State) : s.consume8 = (s.immByte, s.setPc (s.pc + 1#16)) := rfl

theorem State.consume16_eq (s : State) : s.consume16 = (s.immWord, s.setPc (s.pc + 2#16)) := by
  have h : s.pc + 1#16 + 1#16 = s.pc + 2#16 := by rw [BitVec.add_assoc]; rfl
  simp [State.consume16, State.consume8, State.immWord, pcInc, h]

@[simp] theorem State.setPc_hlConcat (s : State) (v : Word) : (s.setPc v).hlConcat = s.hlConcat := rfl

@[simp] theorem State.setPc_hlAddress (s : State) (v : Word) : (s.setPc v).hlAddress = s.hlAddress := rfl

/-- The HL address, by the mode. -/
theorem State.hlAddress_eq (s : State) :
    s.hlAddress = match s.cfg.hlAddressMode with
      | .pairRead => wordOfBytes s.cfg.wordOrder (s.readByte s.hlConcat) (s.readByte (s.hlConcat + 1#16))
      | .direct => s.hlConcat := by
  unfold State.hlAddress State.pairRead State.readWord
  rfl

end Sys2Proof.Machine
end

