-- ==== Sys2Proof/Laws/Disassembly.lean ====
section
/-! SUPPORT. Disassembly text: the digits, and the text of each form as its template with the capability's renderings, so
that no proof unfolds a template. -/

namespace Sys2Proof.Machine

/-- The digit of `n` is the n-th of the sixteen (46_disassembly.md R202). -/
theorem hexDigit_lookup {n : Nat} (h : n < 16) :
    (['0', '1', '2', '3', '4', '5', '6', '7', '8', '9', 'a', 'b', 'c', 'd', 'e', 'f'] : List Char)[n]? =
      some (hexDigit n) := by
  revert h; revert n; decide

@[simp] theorem disassemble_nop (cap : Capability) : disassemble cap .nop = ['n', 'o', 'p'] := rfl

@[simp] theorem disassemble_illegal (cap : Capability) (op : Byte) :
    disassemble cap (.illegal op) = ['i', 'l', 'l', 'e', 'g', 'a', 'l'] := rfl

@[simp] theorem disassemble_ldRHl (cap : Capability) (dst : Reg) :
    disassemble cap (.ldRHl dst) = ['l', 'd', ' '] ++ dst.name ++ [',', ' '] ++ renderIndirectAddress cap := by
  simp [disassemble, Instr.template, renderPart]

@[simp] theorem disassemble_ldRR (cap : Capability) (dst src : Reg) :
    disassemble cap (.ldRR dst src) = ['l', 'd', ' '] ++ dst.name ++ [',', ' '] ++ src.name := by
  simp [disassemble, Instr.template, renderPart]

@[simp] theorem disassemble_ldRN (cap : Capability) (dst : Reg) :
    disassemble cap (.ldRN dst) = ['l', 'd', ' '] ++ dst.name ++ [',', ' '] ++ renderImmediateByte cap := by
  simp [disassemble, Instr.template, renderPart]

@[simp] theorem disassemble_ldRrNn (cap : Capability) (p : RegPair) :
    disassemble cap (.ldRrNn p) = ['l', 'd', ' '] ++ p.name ++ [',', ' '] ++ renderImmediateWord cap := by
  simp [disassemble, Instr.template, renderPart]

@[simp] theorem disassemble_addAR (cap : Capability) (src : Reg) :
    disassemble cap (.addAR src) = ['a', 'd', 'd', ' ', 'a', ',', ' '] ++ src.name := by
  simp [disassemble, Instr.template, renderPart]

@[simp] theorem disassemble_jpNn (cap : Capability) :
    disassemble cap .jpNn = ['j', 'p', ' '] ++ renderImmediateWord cap := by
  simp [disassemble, Instr.template, renderPart]

end Sys2Proof.Machine
end

