-- ==== Sys2Proof/Laws/Flags.lean ====
section
/-! SUPPORT. The bits of a packed flags byte. -/

namespace Sys2Proof.Machine

theorem packFlags_bits (s z h v n c : Bool) :
    (packFlags s z h v n c).getLsbD 7 = s ∧ (packFlags s z h v n c).getLsbD 6 = z ∧
    (packFlags s z h v n c).getLsbD 5 = false ∧ (packFlags s z h v n c).getLsbD 4 = h ∧
    (packFlags s z h v n c).getLsbD 3 = false ∧ (packFlags s z h v n c).getLsbD 2 = v ∧
    (packFlags s z h v n c).getLsbD 1 = n ∧ (packFlags s z h v n c).getLsbD 0 = c := by
  revert s z h v n c; decide

end Sys2Proof.Machine
end

