-- ==== Sys2Proof/Laws/PerInstr.lean ====
section
/-! SUPPORT. Statements about an instruction as syntax, one lemma per constructor of Instr.
OpcodeRoundTrip: the opcode of a well-formed instruction decodes to it. -/

namespace Sys2Proof.Laws.OpcodeRoundTrip

def Statement (i : Instr) : Prop := i.wf = true → decode (encode i) = i

theorem nop : Statement .nop := fun _ => rfl

theorem ldRHl (dst : Reg) : Statement (.ldRHl dst) := fun _ => by cases dst <;> rfl

theorem ldRR (dst src : Reg) : Statement (.ldRR dst src) := fun h => by
  cases src <;> first | (cases dst <;> rfl) | (simp [Instr.wf] at h)

theorem ldRN (dst : Reg) : Statement (.ldRN dst) := fun _ => by cases dst <;> rfl

theorem ldRrNn (p : RegPair) : Statement (.ldRrNn p) := fun _ => by cases p <;> rfl

theorem addAR (src : Reg) : Statement (.addAR src) := fun _ => by cases src <;> rfl

theorem jpNn : Statement .jpNn := fun _ => rfl

theorem illegal (op : Byte) : Statement (.illegal op) := by
  unfold Statement; revert op; decide

end Sys2Proof.Laws.OpcodeRoundTrip
end

