-- ==== Sys2Proof/Laws/Step.lean ====
section
/-! SUPPORT. What executing each instruction does, in one equation each; what the end of a step does; and the one
inversion of a step. -/

namespace Sys2Proof.Machine

/-! ## Execute -/

@[simp] theorem exec_nop (s : State) : exec .nop s = .next s := rfl

@[simp] theorem exec_ldRHl (dst : Reg) (s : State) :
    exec (.ldRHl dst) s = .next (s.writeReg dst (s.readByte s.hlAddress)) := rfl

@[simp] theorem exec_ldRR (dst src : Reg) (s : State) :
    exec (.ldRR dst src) s = .next (s.writeReg dst (s.readReg src)) := rfl

@[simp] theorem exec_ldRN (dst : Reg) (s : State) :
    exec (.ldRN dst) s = .next ((s.setPc (s.pc + 1#16)).writeReg dst s.immByte) := rfl

@[simp] theorem exec_ldRrNn (p : RegPair) (s : State) :
    exec (.ldRrNn p) s = .next ((s.setPc (s.pc + 2#16)).pairWrite p s.immWord) := by
  simp [exec, execLdRrNn, State.consume16_eq]

@[simp] theorem exec_addAR (src : Reg) (s : State) :
    exec (.addAR src) s = .next ((s.writeReg .a (addResult (s.readReg .a) (s.readReg src))).writeReg .f
      (addFlags (s.readReg .a) (s.readReg src))) := rfl

@[simp] theorem exec_jpNn (s : State) :
    exec .jpNn s = .next ((s.setPc (s.pc + 2#16)).setJump (some s.immWord)) := by
  simp [exec, execJpNn, State.consume16_eq]

@[simp] theorem exec_illegal (op : Byte) (s : State) :
    exec (.illegal op) s = .next (s.setStatus (.faulted op s.pc)) := rfl

/-- Executing never stops: the machine goes on to a state of the same configuration and the same unused registers. -/
theorem exec_answers_next (i : Instr) (s : State) :
    ∃ t, exec i s = .next t ∧ t.cfg = s.cfg ∧ t.ix = s.ix ∧ t.iy = s.iy ∧ t.r = s.r := by
  cases i <;> simp

/-- Executing keeps memory canonical. -/
theorem exec_keeps_wf {i : Instr} {s t : State} (h : s.mem.wf = true) (ht : exec i s = .next t) :
    t.mem.wf = true := by
  cases i <;> simp at ht <;> subst ht <;> first | exact h | exact State.pairWrite_wf (s := s.setPc (s.pc + 2#16)) h _ _

/-- Executing leaves the status Running, or is the illegal-opcode instruction raising its exception. -/
theorem exec_status {i : Instr} {s t : State} (hr : s.status = .running) (ht : exec i s = .next t) :
    (t.status = .running ∧ i.kind ≠ .ILLEGAL) ∨ ∃ op, i = .illegal op ∧ t = s.setStatus (.faulted op s.pc) := by
  cases i <;> simp at ht <;> subst ht <;> simp [hr, Instr.kind]

/-- Only JP nn touches the pending redirect. -/
theorem exec_jump {i : Instr} {s t : State} (hi : i ≠ .jpNn) (ht : exec i s = .next t) : t.jump = s.jump := by
  cases i <;> simp at ht hi <;> subst ht <;> simp

/-! ## Advance -/

theorem State.advance_faulted {s : State} {op : Byte} {a : Word} (h : s.status = .faulted op a) : s.advance = s := by
  simp [State.advance, h]

theorem State.advance_jump {s : State} {a : Word} (h : s.status = .running) (hj : s.jump = some a) :
    s.advance = (s.setPc a).setJump none := by
  simp [State.advance, h, hj]

theorem State.advance_next {s : State} (h : s.status = .running) (hj : s.jump = none) (hp : s.pc ≠ 0xFFFF#16) :
    s.advance = s.setPc (s.pc + 1#16) := by
  simp [State.advance, h, hj, pcInc, hp]

theorem State.advance_end {s : State} (h : s.status = .running) (hj : s.jump = none) (hp : s.pc = 0xFFFF#16) :
    s.advance = s.setStatus .terminated := by
  simp [State.advance, h, hj, pcInc, hp]

/-- Everything the end of a step can do. -/
theorem State.advance_cases (s : State) :
    s.advance = s ∨ (∃ a, s.advance = (s.setPc a).setJump none) ∨ (∃ a, s.advance = s.setPc a) ∨
      s.advance = s.setStatus .terminated := by
  unfold State.advance
  split
  · exact .inl rfl
  all_goals
    split
    · exact .inr (.inl ⟨_, rfl⟩)
    · dsimp only
      split
      · exact .inr (.inr (.inr rfl))
      · exact .inr (.inr (.inl ⟨_, rfl⟩))

@[simp] theorem State.advance_readReg (s : State) (q : Reg) : s.advance.readReg q = s.readReg q := by
  rcases s.advance_cases with h | ⟨a, h⟩ | ⟨a, h⟩ | h <;> rw [h] <;> rfl

@[simp] theorem State.advance_mem (s : State) : s.advance.mem = s.mem := by
  rcases s.advance_cases with h | ⟨a, h⟩ | ⟨a, h⟩ | h <;> rw [h] <;> rfl

@[simp] theorem State.advance_readByte (s : State) (a : Word) : s.advance.readByte a = s.readByte a := by
  simp [State.readByte]

@[simp] theorem State.advance_sp (s : State) : s.advance.sp = s.sp := by
  rcases s.advance_cases with h | ⟨a, h⟩ | ⟨a, h⟩ | h <;> rw [h] <;> rfl

/-- The end of a step commutes with an update of anything but pc, the redirect and the status. -/
theorem State.advance_commutes (f : State → State) (hs : ∀ s, (f s).status = s.status) (hj : ∀ s, (f s).jump = s.jump)
    (hp : ∀ s, (f s).pc = s.pc) (c1 : ∀ s v, f (s.setPc v) = (f s).setPc v)
    (c2 : ∀ s v, f (s.setJump v) = (f s).setJump v) (c3 : ∀ s v, f (s.setStatus v) = (f s).setStatus v) (s : State) :
    (f s).advance = f s.advance := by
  unfold State.advance
  rw [hs, hj, hp]
  split
  · rfl
  all_goals
    split
    · rw [c2, c1]
    · dsimp only
      split <;> simp [c1, c3]

/-! ## Step -/

/-- The one thing a step can do: from a Running state, execute the instruction at pc and advance. -/
theorem step_eq_next {s t : State} (h : step s = .next t) :
    s.status = .running ∧ ∃ u, exec s.fetchInstr s = .next u ∧ t = u.advance := by
  unfold step at h
  split at h
  · cases h
  · cases h
  · rename_i hr
    obtain ⟨u, hu, -⟩ := exec_answers_next s.fetchInstr s
    rw [hu] at h
    cases h
    exact ⟨hr, u, hu, rfl⟩

/-- A Running state steps to the advance of what executing the instruction at pc gives. -/
theorem step_of_exec {s u : State} (h : s.status = .running) (hu : exec s.fetchInstr s = .next u) :
    step s = .next u.advance := by
  simp [step, h, hu]

/-- A step commutes with an update of anything but pc, the redirect and the status, if the fetch does not see the update
and executing commutes with it. -/
theorem step_commutes (f : State → State) (hs : ∀ s, (f s).status = s.status) (hj : ∀ s, (f s).jump = s.jump)
    (hp : ∀ s, (f s).pc = s.pc) (c1 : ∀ s v, f (s.setPc v) = (f s).setPc v)
    (c2 : ∀ s v, f (s.setJump v) = (f s).setJump v) (c3 : ∀ s v, f (s.setStatus v) = (f s).setStatus v) (s : State)
    (hf : (f s).fetchInstr = s.fetchInstr)
    (he : ∀ u, exec s.fetchInstr s = .next u → exec s.fetchInstr (f s) = .next (f u)) :
    step (f s) = mapNext f (step s) := by
  unfold step
  rw [hs, hf]
  obtain ⟨u, hu, -⟩ := exec_answers_next s.fetchInstr s
  rw [hu, he u hu]
  split <;> simp [mapNext]
  exact State.advance_commutes f hs hj hp c1 c2 c3 u

end Sys2Proof.Machine
end

