-- ==== Sys2Proof/Laws/Runs.lean ====
section
/-! SUPPORT. Runs one step at a time. -/

namespace Sys2Proof.Machine

/-- A machine that steps runs on from the next state. -/
theorem run_succ_of_next {M : Host.Core} {s t : M.State} (k : Nat) (h : M.step s = .next t) :
    M.run (k + 1) s = M.run k t := by
  simp [Host.Core.run, h]

/-- A machine that faults stops there. -/
theorem run_succ_of_fault {M : Host.Core} {s : M.State} {x : M.Fault} (k : Nat) (h : M.step s = .fault x) :
    M.run (k + 1) s = .fault x := by
  simp [Host.Core.run, h]

/-- A machine that refuses stops there. -/
theorem run_succ_of_refused {M : Host.Core} {s : M.State} {x : M.Refusal} (k : Nat) (h : M.step s = .refused x) :
    M.run (k + 1) s = .refused x := by
  simp [Host.Core.run, h]

@[simp] theorem runsTo_zero (s t : State) : runsTo s 0 t ↔ t = s := by
  constructor
  · intro h; cases h; rfl
  · rintro rfl; rfl

/-- The first step of a run, and the rest of it. -/
theorem runsTo_succ (s : State) (k : Nat) (u : State) :
    runsTo s (k + 1) u ↔ ∃ t, step s = .next t ∧ runsTo t k u := by
  unfold runsTo
  rcases h : step s with t | x | x
  · rw [show Host.Core.run core (k + 1) s = Host.Core.run core k t from run_succ_of_next (M := core) k h]; simp
  · rw [show Host.Core.run core (k + 1) s = .fault x from run_succ_of_fault (M := core) k h]; simp
  · rw [show Host.Core.run core (k + 1) s = .refused x from run_succ_of_refused (M := core) k h]; simp

/-- Runs join end to end. -/
theorem runsTo_add {s t u : State} {j k : Nat} (h : runsTo s j t) : runsTo s (j + k) u ↔ runsTo t k u := by
  induction j generalizing s with
  | zero => rw [runsTo_zero] at h; subst h; rw [Nat.zero_add]
  | succ j ih =>
    obtain ⟨v, hv, hj⟩ := (runsTo_succ s j t).1 h
    rw [show j + 1 + k = (j + k) + 1 by omega, runsTo_succ, ← ih hj]
    constructor
    · rintro ⟨w, hw, hk⟩; rw [hv] at hw; cases hw; exact hk
    · intro hk; exact ⟨v, hv, hk⟩

/-- A property every step keeps holds along a run. -/
theorem runsTo_keeps {P : State → Prop} (hP : ∀ s t, P s → step s = .next t → P t) {s t : State} {k : Nat} (hs : P s)
    (h : runsTo s k t) : P t := by
  induction k generalizing s with
  | zero => rw [runsTo_zero] at h; subst h; exact hs
  | succ k ih =>
    obtain ⟨v, hv, hk⟩ := (runsTo_succ s k t).1 h
    exact ih (hP s v hs hv) hk

end Sys2Proof.Machine
end

