-- ==== Sys2Proof/Tests/Slice0.lean ====
section
/-! SUPPORT. Tests: well-formedness smoke tests, words written out from the encoding of 30_encoding.md R71, the vectors of
95_test_vectors.md (W, V and PC numbers; the spec's own values), and for each statement with hypotheses a state that
meets them. -/

namespace Sys2Proof.Machine.Tests

/-! ## States for tests -/

/-- The construction state with other registers, pc and memory. -/
def at_ (rf : RegFile) (pc : Word) (m : Memory) : State := { State.reset with regs := rf, pc := pc, mem := m }

/-- All registers zero. -/
def zeroRegs : RegFile := ⟨0, 0, 0, 0, 0, 0, 0, 0⟩

/-- H and L given, the other registers zero. -/
def withHl (h l : Byte) : RegFile := { zeroRegs with h := h, l := l }

/-- The same state under other parameters. -/
def under (o : WordOrder) (m : HlAddressMode) (s : State) : State := { s with cfg := ⟨o, m⟩ }

/-- One step, if it answers a next state. -/
def after (s : State) : Option State :=
  match step s with
  | .next t => some t
  | .fault _ => none
  | .refused _ => none

/-! ## Well-formedness: each check refuses an ill-formed term -/

theorem test_wf_refuses_ldRR_from_f : Instr.wf (.ldRR .b .f) = false := by decide
theorem test_wf_refuses_illegal_of_an_implemented_opcode :
    Instr.wf (.illegal 0x00#8) = false ∧ Instr.wf (.illegal 0xC3#8) = false := by decide
theorem test_wf_accepts_illegal : Instr.wf (.illegal 0x3C#8) = true ∧ Instr.wf (.ldRR .f .a) = true := by decide
theorem test_encoded_wf_refuses_wrong_operand_count :
    Encoded.wf ⟨.ldRN .a, []⟩ = false ∧ Encoded.wf ⟨.jpNn, [0x00#8]⟩ = false ∧
    Encoded.wf ⟨.nop, [0x00#8]⟩ = false := by decide
theorem test_memory_wf_refuses : Memory.wf [(5, 1), (5, 2)] = false ∧ Memory.wf [(6, 1), (5, 2)] = false ∧
    Memory.wf [(5, 0)] = false ∧ Memory.wf [(65536, 1)] = false ∧ Memory.wf [(65535, 1)] = true := by decide

/-! ## Decoding, from R71's field layout (95_test_vectors.md 2.4) -/

theorem test_decode_nop : decode 0b00000000#8 = .nop := by decide
theorem test_decode_ldRHl : decode 0b01000110#8 = .ldRHl .b ∧ decode 0b01110110#8 = .ldRHl .f := by decide
theorem test_decode_ldRR : decode 0b01000000#8 = .ldRR .b .b ∧ decode 0b01110111#8 = .ldRR .f .a := by decide
theorem test_decode_ldRN : decode 0b00000110#8 = .ldRN .b ∧ decode 0b00110110#8 = .ldRN .f := by decide
theorem test_decode_ldRrNn : decode 0b00000001#8 = .ldRrNn .bc ∧ decode 0b00010001#8 = .ldRrNn .de ∧
    decode 0b00100001#8 = .ldRrNn .hl ∧ decode 0b00110001#8 = .ldRrNn .sp := by decide
theorem test_decode_addAR : decode 0b10000000#8 = .addAR .b ∧ decode 0b10000110#8 = .addAR .f ∧
    decode 0b10000111#8 = .addAR .a := by decide
theorem test_decode_jpNn : decode 0b11000011#8 = .jpNn := by decide
theorem test_decode_illegal : decode 0x88#8 = .illegal 0x88#8 ∧ decode 0x3C#8 = .illegal 0x3C#8 ∧
    decode 0xCB#8 = .illegal 0xCB#8 ∧ decode 0xC2#8 = .illegal 0xC2#8 := by decide
theorem test_decodeBytes_takes_the_operands :
    (match decodeBytes [0x01#8, 0x34#8, 0x12#8, 0x3C#8] with
      | .ok (e, rest) => decide (e = ⟨.ldRrNn .bc, [0x34#8, 0x12#8]⟩ ∧ rest = [0x3C#8])
      | .error _ => false) = true := by decide
theorem test_decodeBytes_rejects_a_short_list :
    (match decodeBytes [0x01#8, 0x34#8] with
      | .ok _ => false
      | .error r => decide (r = .truncated (.ldRrNn .bc) 1)) = true := by decide
theorem test_decodeTableWord : decodeTableWord 8 0x7E = some (.ldRHl .a) ∧
    decodeTableWord 24 0x123431 = some (.ldRrNn .sp) ∧ decodeTableWord 8 0xC3 = some .jpNn := by decide
theorem test_withFetchWord_runs :
    (after (State.reset.withFetchWord 16 0x053E)).map (fun t => (t.readReg .a, t.pc)) = some (0x05#8, 2#16) := by decide

/-! ## One step: the vectors -/

-- V1
theorem test_nop : after (at_ zeroRegs 0x0100#16 []) = some (at_ zeroRegs 0x0101#16 []) := by decide
-- W8: a 1-byte instruction at 0xFFFF ends the run with pc = FFFF
theorem test_nop_ends_at_ffff : (after (at_ zeroRegs 0xFFFF#16 [])).map (fun t => (t.status, t.pc)) =
    some (.terminated, 0xFFFF#16) := by decide
-- V7: the pointer word wraps
theorem test_ldRHl_pointer_wraps :
    (after (at_ (withHl 0xFF 0xFF) 0x0100#16 [(0, 0x12), (0x100, 0x4E), (0x1234, 0xC7), (0xFFFF, 0x34)])).map
      (fun t => t.readReg .c) = some 0xC7#8 := by decide
-- V3 and V4: the other HL address mode, the other byte order
theorem test_ldRHl_parameters :
    (after (under .little .direct (at_ (withHl 0x12 0x34) 0x0100#16 [(0x100, 0x7E), (0x1235, 0x80), (0x8000, 0x5A)]))).map
      (fun t => t.readReg .a) = some 0x00#8 ∧
    (after (under .big .pairRead (at_ (withHl 0x12 0x34) 0x0100#16 [(0x80, 0x66), (0x100, 0x7E), (0x1235, 0x80)]))).map
      (fun t => t.readReg .a) = some 0x66#8 := by decide
-- V8 (W4)
theorem test_ldRR : (after (at_ { zeroRegs with a := 0xBE, b := 0xEF } 0x0100#16 [(0x100, 0x47)])).map
    (fun t => (t.readReg .a, t.readReg .b)) = some (0xBE#8, 0xBE#8) := by decide
-- V10
theorem test_ldRR_into_f : (after (at_ { zeroRegs with a := 0x28 } 0x0100#16 [(0x100, 0x77)])).map
    (fun t => t.readReg .f) = some 0x28#8 := by decide
-- PC3
theorem test_ldRN_ends : (after (at_ zeroRegs 0xFFFE#16 [(0xFFFE, 0x06), (0xFFFF, 0x2A)])).map
    (fun t => (t.readReg .b, t.status, t.pc)) = some (0x2A#8, .terminated, 0xFFFF#16) := by decide
-- PC4, first step
theorem test_ldRN_operand_wraps : (after (at_ zeroRegs 0xFFFF#16 [(0, 0x77), (1, 0x3C), (0xFFFF, 0x3E)])).map
    (fun t => (t.readReg .a, t.status, t.pc)) = some (0x77#8, .running, 0x0001#16) := by decide
-- V14 and V15
theorem test_ldBc : (after (at_ zeroRegs 0x0100#16 [(0x100, 0x01), (0x101, 0x34), (0x102, 0x12)])).map
      (fun t => (t.readReg .b, t.readReg .c, t.pc)) = some (0x12#8, 0x34#8, 0x0103#16) ∧
    (after (under .big .pairRead (at_ zeroRegs 0x0100#16 [(0x100, 0x01), (0x101, 0x34), (0x102, 0x12)]))).map
      (fun t => (t.readReg .b, t.readReg .c)) = some (0x34#8, 0x12#8) := by decide
-- PC6
theorem test_ldDe_ends : (after (at_ zeroRegs 0xFFFD#16 [(0xFFFD, 0x11), (0xFFFE, 0xEF), (0xFFFF, 0xBE)])).map
    (fun t => (t.readReg .d, t.readReg .e, t.status, t.pc)) = some (0xBE#8, 0xEF#8, .terminated, 0xFFFF#16) := by decide
-- V18: the address wraps
theorem test_ldHl_address_wraps :
    (after (at_ (withHl 0xFF 0xFF) 0x0100#16 [(0x100, 0x21), (0x101, 0xCD), (0x102, 0xAB)])).map (fun t => (t.mem, t.regs)) =
      some ([(0, 0xAB), (0x100, 0x21), (0x101, 0xCD), (0x102, 0xAB), (0xFFFF, 0xCD)], withHl 0xFF 0xFF) := by decide
-- P4, first step: LD HL,nn over its own bytes
theorem test_ldHl_over_itself :
    (after (at_ zeroRegs 0x0000#16 [(0, 0x21), (1, 0xC3), (2, 0xFF), (3, 0xC3)])).map (fun t => (t.mem, t.pc)) =
      some ([(0, 0xC3), (1, 0xFF), (2, 0xFF), (3, 0xC3)], 0x0003#16) := by decide
-- V20
theorem test_ldSp : (after (at_ zeroRegs 0x0100#16 [(0x100, 0x31), (0x102, 0x80)])).map (fun t => (t.sp, t.pc)) =
    some (0x8000#16, 0x0103#16) := by decide
-- V23
theorem test_addAF : (after (at_ { zeroRegs with a := 0x01, f := 0x51 } 0x0100#16 [(0x100, 0x86)])).map
    (fun t => (t.readReg .a, t.readReg .f)) = some (0x52#8, 0x00#8) := by decide
-- V24: F bits 5 and 3 are cleared
theorem test_addAC_clears_f : (after (at_ { zeroRegs with a := 0x01, c := 0x01, f := 0x28 } 0x0100#16 [(0x100, 0x81)])).map
    (fun t => (t.readReg .a, t.readReg .f)) = some (0x02#8, 0x00#8) := by decide
-- V25
theorem test_jpNn : (after (at_ zeroRegs 0x0100#16 [(0x100, 0xC3), (0x102, 0x10)])).map (fun t => (t.pc, t.jump)) =
    some (0x1000#16, none) := by decide
-- PC7, first step
theorem test_jpNn_operand_wraps : (after (at_ zeroRegs 0xFFFF#16 [(0, 0x10), (0x10, 0x3C), (0xFFFF, 0xC3)])).map
    (fun t => (t.pc, t.status)) = some (0x0010#16, .running) := by decide
-- V27
theorem test_illegal : after (at_ zeroRegs 0x0100#16 [(0x100, 0xCB)]) =
    some ((at_ zeroRegs 0x0100#16 [(0x100, 0xCB)]).setStatus (.faulted 0xCB#8 0x0100#16)) := by decide
-- R31: no step follows
theorem test_no_step_after_a_fault :
    after ((at_ zeroRegs 0x0100#16 [(0x100, 0xCB)]).setStatus (.faulted 0xCB#8 0x0100#16)) = none := by decide
-- W2, W3 and the table of 2.1
theorem test_alu_vectors :
    ([(0x00#8, 0x00#8, 0x00#8, 0x40#8), (0x01#8, 0x01#8, 0x02#8, 0x00#8), (0x0F#8, 0x01#8, 0x10#8, 0x10#8),
      (0x7F#8, 0x01#8, 0x80#8, 0x94#8), (0x80#8, 0x80#8, 0x00#8, 0x45#8), (0xFF#8, 0xFF#8, 0xFE#8, 0x91#8),
      (0x80#8, 0x7F#8, 0xFF#8, 0x80#8), (0xFF#8, 0x01#8, 0x00#8, 0x51#8), (0xF0#8, 0x0F#8, 0xFF#8, 0x80#8),
      (0x40#8, 0x40#8, 0x80#8, 0x84#8), (0xC0#8, 0xC0#8, 0x80#8, 0x81#8), (0x88#8, 0x88#8, 0x10#8, 0x15#8)].all
      fun x => decide (aluAdd x.1 x.2.1 = (x.2.2.1, x.2.2.2))) = true := by decide
-- V2 and W5, V12, V17, V27: the texts
theorem test_texts :
    State.stepText (at_ (withHl 0x12 0x34) 0x0100#16 [(0x100, 0x7E), (0x1235, 0x80)]) =
      ['l', 'd', ' ', 'a', ',', ' ', '@', '8', '0', '0', '0'] ∧
    disassemble .static (decode 0x7E#8) = ['l', 'd', ' ', 'a', ',', ' ', '(', 'h', 'l', ')'] ∧
    State.stepText (at_ zeroRegs 0x0100#16 [(0x100, 0x06), (0x101, 0x2A)]) =
      ['l', 'd', ' ', 'b', ',', ' ', '$', '2', 'a'] ∧
    State.stepText (at_ zeroRegs 0x0100#16 [(0x100, 0x21), (0x101, 0xCD), (0x102, 0xAB)]) =
      ['l', 'd', ' ', 'h', 'l', ',', ' ', '$', 'a', 'b', 'c', 'd'] ∧
    State.stepText (at_ zeroRegs 0x0100#16 [(0x100, 0xCB)]) = ['i', 'l', 'l', 'e', 'g', 'a', 'l'] := by decide

/-! ## Witnesses: for each statement with hypotheses, a state that meets them, one for each clause -/

/-- LD HL,nn at 0x0100 with {H, L} = 0xFFFF, the boundary of a word access. -/
def ldHlState : State := at_ (withHl 0xFF 0xFF) 0x0100#16 [(0x100, 0x21), (0x101, 0xCD), (0x102, 0xAB)]
/-- LD A,(HL) at 0x0100. -/
def ldAHlState : State := at_ (withHl 0x12 0x34) 0x0100#16 [(0x100, 0x7E), (0x1235, 0x80), (0x8000, 0x5A)]
/-- JP 0x0100 at 0x0100 (V26). -/
def jpSelfState : State := at_ zeroRegs 0x0100#16 [(0x100, 0xC3), (0x102, 0x01)]
/-- An illegal opcode at 0x0002 (R231's example). -/
def illegalState : State := at_ zeroRegs 0x0002#16 [(2, 0x3C)]
/-- LD SP,nn at 0x0100 (V20). -/
def ldSpState : State := at_ zeroRegs 0x0100#16 [(0x100, 0x31), (0x102, 0x80)]
/-- ADD A,B at 0x0100. -/
def addState : State := at_ { zeroRegs with a := 0xF0, b := 0x0F } 0x0100#16 [(0x100, 0x80)]
/-- NOP at 0xFFFF. -/
def lastState : State := at_ zeroRegs 0xFFFF#16 []

theorem witness_launch : ldHlState.launchable := by unfold State.launchable; decide
theorem witness_invariant_step : ldHlState.Inv ∧ ∃ t, step ldHlState = .next t :=
  ⟨⟨by decide, by decide, by decide, fun _ _ h => by simp [ldHlState, at_, State.reset] at h⟩, ⟨_, rfl⟩⟩
theorem witness_register_field : (0b111#3) ≠ 0b110#3 := by decide
theorem witness_lengths :
    (decode 0x01#8).length ≤ [0x34#8, 0x12#8].length + 1 := by decide
theorem witness_pattern_overlap :
    ∃ x ∈ maskMatchRows, ∃ y ∈ maskMatchRows, 0x46#8 &&& x.1 = x.2.1 ∧ 0x46#8 &&& y.1 = y.2.1 ∧ x ≠ y := by decide
theorem witness_illegal_carries_itself : decode 0x02#8 = .illegal 0x02#8 := by decide
theorem witness_encoded : Encoded.wf ⟨.ldRrNn .sp, [0x00#8, 0x80#8]⟩ = true ∧ Encoded.wf ⟨.ldRN .f, [0xFF#8]⟩ = true := by
  decide
theorem witness_pair_hl : ldHlState.mem.wf = true ∧ ldHlState.cfg.wordOrder = .little ∧
    (under .big .pairRead ldHlState).mem.wf = true ∧ (under .big .pairRead ldHlState).cfg.wordOrder = .big ∧
    ldHlState.hlConcat = 0xFFFF#16 := by decide
/-- The same two bytes written in either order. -/
def bytesUp : Memory := Memory.write (Memory.write [] 5#16 1#8) 65535#16 2#8
def bytesDown : Memory := Memory.write (Memory.write [] 65535#16 2#8) 5#16 1#8
theorem bytesUp_eq_bytesDown : bytesUp = bytesDown := by decide
theorem witness_equal_memories :
    bytesUp.wf = true ∧ bytesDown.wf = true ∧ ∀ a, bytesUp.read a = bytesDown.read a :=
  ⟨by decide, by decide, fun a => congrArg (fun m => Memory.read m a) bytesUp_eq_bytesDown⟩
theorem witness_program_load : lastState.mem.wf = true ∧ [0x06#8, 0x2A#8].length ≤ 65536 ∧
    (∀ k, k < [0x06#8, 0x2A#8].length → (0x0001#16) ≠ 0xFFFF#16 + BitVec.ofNat 16 k) :=
  ⟨by decide, by decide, by decide⟩
theorem witness_loaded_instruction : lastState.mem.wf = true ∧
    Encoded.wf ⟨.ldRN .b, [0x2A#8]⟩ = true ∧ Encoded.wf ⟨.jpNn, [0x10#8, 0x00#8]⟩ = true ∧
    lastState.cfg.wordOrder = .little ∧ (under .big .direct lastState).cfg.wordOrder = .big := by decide
theorem witness_alu_sum_100 : (0xFF#8 : Byte).toNat + (0x01#8 : Byte).toNat = 0x100 := by decide
theorem witness_nop_step : (at_ zeroRegs 0xFFFE#16 []).status = .running ∧ (at_ zeroRegs 0xFFFE#16 []).jump = none ∧
    (at_ zeroRegs 0xFFFE#16 []).readByte 0xFFFE#16 = 0x00#8 ∧ (at_ zeroRegs 0xFFFE#16 []).pc ≠ 0xFFFF#16 := by decide
theorem witness_zero_bytes : State.reset.status = .running ∧ State.reset.jump = none ∧
    (∀ a : Word, State.reset.pc ≤ a → State.reset.readByte a = 0x00#8) :=
  ⟨rfl, rfl, fun _ _ => rfl⟩
theorem witness_load_into_f : ldAHlState.readByte ldAHlState.hlAddress = 0x5A#8 ∧
    ldAHlState.readByte (ldAHlState.pc + 1#16) = 0x00#8 := by decide
theorem witness_ldBc_bytes :
    (let s := at_ zeroRegs 0xFFFE#16 [(0, 0x12), (0xFFFE, 0x01), (0xFFFF, 0x34)]
     s.readByte (s.pc + 1#16) = 0x34#8 ∧ s.readByte (s.pc + 2#16) = 0x12#8 ∧ s.cfg.wordOrder = .little ∧
     (under .big .direct s).cfg.wordOrder = .big) := by decide
theorem witness_stored_bytes_fetched : ldHlState.mem.wf = true ∧ ldHlState.status = .running ∧ ldHlState.jump = none ∧
    ldHlState.fetchInstr = .ldRrNn .hl := by decide
theorem witness_sp_unused : ldSpState.fetchInstr = .ldRrNn .sp ∧ addState.fetchInstr ≠ .ldRrNn .sp ∧
    (after addState).isSome = true ∧ ldSpState.cfg.wordOrder = .little ∧
    ldSpState.readByte (ldSpState.pc + 1#16) = 0x00#8 ∧ ldSpState.readByte (ldSpState.pc + 2#16) = 0x80#8 := by decide
theorem witness_jp : jpSelfState.status = .running ∧ jpSelfState.jump = none ∧ jpSelfState.fetchInstr = .jpNn ∧
    jpSelfState.immWord = jpSelfState.pc := by decide
theorem witness_illegal_step : illegalState.status = .running ∧ illegalState.fetchInstr = .illegal 0x3C#8 := by decide
/-- The four ends of a step: a fault, a redirect, an increment, the end of the run. -/
theorem witness_step_clauses :
    (∃ t, exec (decode (illegalState.readByte illegalState.pc)) illegalState = .next t ∧
      t.status = .faulted 0x3C#8 0x0002#16) ∧
    (∃ t, exec (decode (jpSelfState.readByte jpSelfState.pc)) jpSelfState = .next t ∧ t.status = .running ∧
      t.jump = some 0x0100#16) ∧
    (∃ t, exec (decode (ldHlState.readByte ldHlState.pc)) ldHlState = .next t ∧ t.status = .running ∧ t.jump = none ∧
      t.pc ≠ 0xFFFF#16) ∧
    (∃ t, exec (decode (lastState.readByte lastState.pc)) lastState = .next t ∧ t.status = .running ∧ t.jump = none ∧
      t.pc = 0xFFFF#16) :=
  ⟨⟨_, rfl, by decide⟩, ⟨_, rfl, by decide⟩, ⟨_, rfl, by decide⟩, ⟨_, rfl, by decide⟩⟩
theorem witness_ended : (lastState.setStatus .terminated).status = .terminated ∧
    (illegalState.setStatus (.faulted 0x3C#8 2#16)).status = .faulted 0x3C#8 2#16 ∧ (after lastState).isSome = true := by
  decide
theorem witness_next_fetch :
    (lastState.status = .running ∧ lastState.jump = none ∧ lastState.fetchInstr ≠ .jpNn ∧
      lastState.fetchInstr.kind ≠ .ILLEGAL ∧
      lastState.pc + BitVec.ofNat 16 (lastState.fetchInstr.length - 1) = 0xFFFF#16) ∧
    (let s := at_ zeroRegs 0xFFFE#16 [(0xFFFE, 0x01)]
     s.status = .running ∧ s.jump = none ∧ s.fetchInstr ≠ .jpNn ∧ s.fetchInstr.kind ≠ .ILLEGAL ∧
      s.pc + BitVec.ofNat 16 (s.fetchInstr.length - 1) ≠ 0xFFFF#16) ∧
    jpSelfState.fetchInstr = .jpNn ∧ illegalState.fetchInstr = .illegal 0x3C#8 := by decide
theorem witness_termination : lastState.jump = none ∧ ∃ t, step lastState = .next t ∧ t.status = .terminated :=
  ⟨rfl, _, rfl, by decide⟩
theorem witness_fault : ∃ t, step illegalState = .next t ∧ t.status = .faulted 0x3C#8 0x0002#16 := ⟨_, rfl, by decide⟩
theorem witness_destination : ∃ t, step addState = .next t ∧ t.readReg .f ≠ addState.readReg .f := ⟨_, rfl, by decide⟩
theorem witness_memory_write : ldHlState.mem.wf = true ∧
    ∃ t, step ldHlState = .next t ∧ t.readByte 0x0000#16 ≠ ldHlState.readByte 0x0000#16 := ⟨by decide, _, rfl, by decide⟩
theorem witness_flags : addState.fetchInstr ≠ .addAR .f ∧ ∃ t, step addState = .next t := ⟨by decide, _, rfl⟩
/-- A memory that differs from `ldAHlState`'s outside what LD A,(HL) reads. -/
theorem witness_read_set : ldAHlState.mem.wf = true ∧ Memory.wf (ldAHlState.mem.write 0x4000#16 0x77#8) = true ∧
    (∀ a ∈ ldAHlState.readSet, (ldAHlState.mem.write 0x4000#16 0x77#8).read a = ldAHlState.readByte a) ∧
    (ldAHlState.mem.write 0x4000#16 0x77#8).read 0x4000#16 ≠ ldAHlState.readByte 0x4000#16 ∧
    (after ldAHlState).isSome = true := by
  have h : ldAHlState.readSet = [0x0100#16, 0x1234#16, 0x1235#16, 0x8000#16] := by decide
  rw [h]
  refine ⟨by decide, by decide, ?_, by decide, by decide⟩
  simp only [List.forall_mem_cons]
  exact ⟨by decide, by decide, by decide, by decide, fun _ h => by simp at h⟩
theorem witness_run_ends_badly : illegalState.status = .running ∧ illegalState.Inv ∧ EndsBadly illegalState 0x3C#8 2#16 :=
  ⟨by decide, ⟨by decide, by decide, by decide, fun _ _ h => by simp [illegalState, at_, State.reset] at h⟩,
    ⟨1, _, rfl, by decide⟩⟩
theorem witness_text : ldHlState.mem.wf = true := by decide

end Sys2Proof.Machine.Tests
end

section
/-! PROOFS. Family 10_state.md: the register pairs BC, DE and SP (R24, R26). -/

namespace Sys2Proof

/-! ## The registers that hold a pair -/

/-- The registers that hold the high and the low byte of a pair (R24). HL and SP are held in none (R25, R26). -/
def RegPair.halves : RegPair → Option (Reg × Reg)
  | .bc => some (.b, .c)
  | .de => some (.d, .e)
  | .hl => none
  | .sp => none

section
variable {p : RegPair} {hi lo : Reg} (h : p.halves = some (hi, lo))
include h

/-- The only pairs with two halves are BC and DE. -/
theorem RegPair.halves_cases : (p = .bc ∧ hi = .b ∧ lo = .c) ∨ (p = .de ∧ hi = .d ∧ lo = .e) := by
  cases p with
  | bc => cases h; exact .inl ⟨rfl, rfl, rfl⟩
  | de => cases h; exact .inr ⟨rfl, rfl, rfl⟩
  | hl | sp => cases h

theorem RegPair.halves_ne : hi ≠ lo := by
  obtain ⟨-, rfl, rfl⟩ | ⟨-, rfl, rfl⟩ := RegPair.halves_cases h <;> decide

theorem RegPair.ne_hl_of_halves : p ≠ .hl := by rintro rfl; cases h

theorem RegPair.ne_sp_of_halves : p ≠ .sp := by rintro rfl; cases h

end

end Sys2Proof

namespace Sys2Proof.Machine

/-! ## The frame of a pair write -/

theorem State.pairWrite_sameFixed (s : State) (p : RegPair) (v : Word) : State.sameFixed s (s.pairWrite p v) :=
  ⟨s.pairWrite_ix p v, s.pairWrite_iy p v, s.pairWrite_r p v, s.pairWrite_cfg p v⟩

theorem State.pairWrite_sameControl (s : State) (p : RegPair) (v : Word) : State.sameControl s (s.pairWrite p v) :=
  ⟨s.pairWrite_jump p v, s.pairWrite_status p v⟩

/-- HL is the only pair that is held in memory (R25). -/
theorem State.pairWrite_mem {p : RegPair} (h : p ≠ .hl) (s : State) (v : Word) : (s.pairWrite p v).mem = s.mem := by
  cases p with
  | hl => exact absurd rfl h
  | bc | de | sp => rfl

/-- SP is the only pair that is held in the stack pointer (R26). -/
theorem State.pairWrite_sp {p : RegPair} (h : p ≠ .sp) (s : State) (v : Word) : (s.pairWrite p v).sp = s.sp := by
  cases p with
  | sp => exact absurd rfl h
  | bc | de | hl => rfl

theorem State.sameMemExcept_of_mem_eq {s t : State} (h : t.mem = s.mem) (addrs : List Word) :
    State.sameMemExcept addrs s t := fun a _ => by rw [State.readByte, State.readByte, h]

theorem State.writeReg_writeReg_sameRegsExcept (s : State) (p q : Reg) (x y : Byte) :
    State.sameRegsExcept [p, q] s ((s.writeReg p x).writeReg q y) := by
  intro r hr
  obtain ⟨hp, hq⟩ : r ≠ p ∧ r ≠ q := by simpa using hr
  rw [State.writeReg_readReg_other _ _ hq, State.writeReg_readReg_other _ _ hp]

/-! ## The pairs held in two registers -/

section
variable {p : RegPair} {hi lo : Reg} (h : p.halves = some (hi, lo))
include h

theorem State.pairRead_of_halves (s : State) : s.pairRead p = joinBytes (s.readReg hi) (s.readReg lo) := by
  obtain ⟨rfl, rfl, rfl⟩ | ⟨rfl, rfl, rfl⟩ := RegPair.halves_cases h <;> rfl

theorem State.pairWrite_of_halves (s : State) (v : Word) :
    s.pairWrite p v = (s.writeReg hi (hiByte v)).writeReg lo (loByte v) := by
  obtain ⟨rfl, rfl, rfl⟩ | ⟨rfl, rfl, rfl⟩ := RegPair.halves_cases h <;> rfl

theorem State.pairWrite_readReg_hi (s : State) (v : Word) : (s.pairWrite p v).readReg hi = hiByte v := by
  rw [State.pairWrite_of_halves h, State.writeReg_readReg_other _ _ (RegPair.halves_ne h),
    State.writeReg_readReg_same]

theorem State.pairWrite_readReg_lo (s : State) (v : Word) : (s.pairWrite p v).readReg lo = loByte v := by
  rw [State.pairWrite_of_halves h, State.writeReg_readReg_same]

theorem State.pairWrite_pairRead_of_halves (s : State) (v : Word) : (s.pairWrite p v).pairRead p = v := by
  rw [State.pairRead_of_halves h, State.pairWrite_readReg_hi h, State.pairWrite_readReg_lo h,
    joinBytes_hiByte_loByte]

/-- A write of a pair held in two registers splits the word big-endian between them and changes nothing else. -/
theorem State.pairWrite_splits_bigEndian (s : State) (v : Word) :
    let t := s.pairWrite p v
    t.readReg hi = hiByte v ∧ t.readReg lo = loByte v ∧ t.pairRead p = v ∧
    State.sameRegsExcept [hi, lo] s t ∧ State.sameMemExcept [] s t ∧ State.sameFixed s t ∧
    State.sameControl s t ∧ t.pc = s.pc ∧ t.sp = s.sp := by
  have hregs : State.sameRegsExcept [hi, lo] s (s.pairWrite p v) := by
    rw [State.pairWrite_of_halves h]
    exact s.writeReg_writeReg_sameRegsExcept hi lo _ _
  have hmem := State.sameMemExcept_of_mem_eq (State.pairWrite_mem (RegPair.ne_hl_of_halves h) s v) []
  exact ⟨State.pairWrite_readReg_hi h s v, State.pairWrite_readReg_lo h s v, State.pairWrite_pairRead_of_halves h s v,
    hregs, hmem, s.pairWrite_sameFixed p v, s.pairWrite_sameControl p v, s.pairWrite_pc p v,
    State.pairWrite_sp (RegPair.ne_sp_of_halves h) s v⟩

end

/-- Settles O14: BC and DE are the two pairs held in two registers. -/
theorem pairsBcAndDeAreBigEndianConcatenations : Obligations.PairsBcAndDeAreBigEndianConcatenations := by
  unfold Obligations.PairsBcAndDeAreBigEndianConcatenations
  intro s v
  have hbc : RegPair.halves .bc = some (.b, .c) := rfl
  have hde : RegPair.halves .de = some (.d, .e) := rfl
  exact ⟨State.pairRead_of_halves hbc s, State.pairRead_of_halves hde s,
    State.pairWrite_splits_bigEndian hbc s v, State.pairWrite_splits_bigEndian hde s v⟩

/-! ## Pair SP -/

theorem State.pairRead_sp_eq_sp (s : State) : s.pairRead .sp = s.sp := rfl

theorem State.pairWrite_sp_eq_setSp (s : State) (v : Word) : s.pairWrite .sp v = s.setSp v := rfl

/-- Settles O15: a write of pair SP is the write of the stack_pointer field. -/
theorem pairSpIsTheStackPointerField : Obligations.PairSpIsTheStackPointerField := by
  unfold Obligations.PairSpIsTheStackPointerField
  intro s v
  have hsp : (s.pairWrite .sp v).sp = v := by rw [State.pairWrite_sp_eq_setSp, State.setSp_sp]
  have hregs : State.sameRegsExcept [] s (s.pairWrite .sp v) := fun q _ => by
    rw [State.pairWrite_sp_eq_setSp, State.setSp_readReg]
  have hmem := State.sameMemExcept_of_mem_eq (State.pairWrite_mem (p := .sp) (by decide) s v) []
  exact ⟨s.pairRead_sp_eq_sp, hsp, hregs, hmem, s.pairWrite_sameFixed .sp v, s.pairWrite_sameControl .sp v,
    s.pairWrite_pc .sp v⟩

end Sys2Proof.Machine
end

section
/-! PROOFS. Family 30_encoding.md: operand fields and instruction length (R70, R72, R73). -/

namespace Sys2Proof

/-! ## Opcodes of a field layout -/

/-- Every ROM entry is what its own opcode decodes to (R71, R75). -/
theorem decode_encode {i : Instr} (h : i.wf = true) : decode (encode i) = i := by
  cases i with
  | nop => exact Laws.OpcodeRoundTrip.nop h
  | ldRHl dst => exact Laws.OpcodeRoundTrip.ldRHl dst h
  | ldRR dst src => exact Laws.OpcodeRoundTrip.ldRR dst src h
  | ldRN dst => exact Laws.OpcodeRoundTrip.ldRN dst h
  | ldRrNn p => exact Laws.OpcodeRoundTrip.ldRrNn p h
  | addAR src => exact Laws.OpcodeRoundTrip.addAR src h
  | jpNn => exact Laws.OpcodeRoundTrip.jpNn h
  | illegal op => exact Laws.OpcodeRoundTrip.illegal op h

/-- Only selector 110 names F (R72). -/
theorem Reg.ofSel_eq_f_iff {x : BitVec 3} : Reg.ofSel x = .f ↔ x = 0b110#3 :=
  Reg.ofSel_injective.eq_iff (b := 0b110#3)

theorem decode_ldRHl_layout (x : BitVec 3) : decode (0b01#2 ++ x ++ 0b110#3) = .ldRHl (Reg.ofSel x) := by
  have h : decode (encode (.ldRHl (Reg.ofSel x))) = _ := decode_encode rfl
  rwa [encode, Reg.sel_ofSel] at h

theorem decode_ldRR_layout (x : BitVec 3) {y : BitVec 3} (hy : y ≠ 0b110#3) :
    decode (0b01#2 ++ x ++ y) = .ldRR (Reg.ofSel x) (Reg.ofSel y) := by
  have hwf : (Instr.ldRR (Reg.ofSel x) (Reg.ofSel y)).wf = true := decide_eq_true (mt Reg.ofSel_eq_f_iff.mp hy)
  have h := decode_encode hwf
  rwa [encode, Reg.sel_ofSel, Reg.sel_ofSel] at h

theorem decode_ldRN_layout (x : BitVec 3) : decode (0b00#2 ++ x ++ 0b110#3) = .ldRN (Reg.ofSel x) := by
  have h : decode (encode (.ldRN (Reg.ofSel x))) = _ := decode_encode rfl
  rwa [encode, Reg.sel_ofSel] at h

theorem decode_ldRrNn_layout (x : BitVec 2) : decode (0b00#2 ++ x ++ 0b0001#4) = .ldRrNn (RegPair.ofSel x) := by
  have h : decode (encode (.ldRrNn (RegPair.ofSel x))) = _ := decode_encode rfl
  rwa [encode, RegPair.sel_ofSel] at h

theorem decode_addAR_layout (y : BitVec 3) : decode (0b10000#5 ++ y) = .addAR (Reg.ofSel y) := by
  have h : decode (encode (.addAR (Reg.ofSel y))) = _ := decode_encode rfl
  rwa [encode, Reg.sel_ofSel] at h

/-! ## F as a source -/

/-- The LD r,(HL) pattern stands before that of LD r,r' and claims every opcode whose source field is 110 (R75). -/
theorem source_field_of_decode_ldRR {op : Byte} {dst src : Reg} (h : decode op = .ldRR dst src) :
    src = Reg.ofSel (opField op 0 3) ∧ opField op 0 3 ≠ 0b110#3 := by
  unfold decode at h
  split_ifs at h with _ hHl hRR
  obtain ⟨-, rfl⟩ := Instr.ldRR.inj h
  exact ⟨rfl, fun hs => hHl ⟨hRR, hs⟩⟩

theorem decode_ne_ldRR_f (op : Byte) (dst : Reg) : decode op ≠ .ldRR dst .f := fun h => by
  obtain ⟨hsrc, hne⟩ := source_field_of_decode_ldRR h
  exact hne (Reg.ofSel_eq_f_iff.mp hsrc.symm)

/-- Settles O4: the eight selectors by the table, each form by its layout, F by the order of the patterns. -/
theorem registerFieldsDecodeThroughTheSelectorTable : Obligations.RegisterFieldsDecodeThroughTheSelectorTable := by
  unfold Obligations.RegisterFieldsDecodeThroughTheSelectorTable
  exact ⟨rfl, rfl, rfl, rfl, rfl, rfl, rfl, rfl, decode_ldRHl_layout, fun x _ hy => decode_ldRR_layout x hy,
    decode_ldRN_layout, decode_addAR_layout, decode_ne_ldRR_f⟩

/-- Settles O5: the four selectors by the table, LD rr,nn by its layout. -/
theorem pairFieldsDecodeThroughTheSelectorTable : Obligations.PairFieldsDecodeThroughTheSelectorTable := by
  unfold Obligations.PairFieldsDecodeThroughTheSelectorTable
  exact ⟨rfl, rfl, rfl, rfl, decode_ldRrNn_layout⟩

/-! ## Reading an instruction from bytes -/

theorem Instr.length_sub_one (i : Instr) : i.length - 1 = i.operandCount := Nat.add_sub_cancel _ 1

/-- A list that holds the operand bytes of its opcode is read (R70). -/
theorem decodeBytes_cons_of_le {op : Byte} {rest : List Byte} (h : (decode op).operandCount ≤ rest.length) :
    decodeBytes (op :: rest) =
      .ok (⟨decode op, rest.take (decode op).operandCount⟩, rest.drop (decode op).operandCount) :=
  if_pos h

/-- Settles O6: the length goes by the form alone, and so does the number of bytes `decodeBytes` takes. -/
theorem opcodeAloneFixesTheLength : Obligations.OpcodeAloneFixesTheLength := by
  unfold Obligations.OpcodeAloneFixesTheLength
  intro op rest
  constructor
  · cases decode op <;> rfl
  · intro hlen
    rw [Instr.length_sub_one]
    exact decodeBytes_cons_of_le (Nat.le_of_succ_le_succ hlen)

end Sys2Proof
end

section
/-! PROOFS. Family 41_nop.md: NOP, and the run over zero bytes (R120). -/

namespace Sys2Proof.Machine

/-! ## The zero byte -/

theorem decode_zero : decode 0x00#8 = .nop := decode_encode (i := .nop) rfl

theorem State.fetchInstr_of_zero {s : State} (h : s.readByte s.pc = 0x00#8) : s.fetchInstr = .nop := by
  rw [State.fetchInstr, State.fetchOpcode, h, decode_zero]

theorem State.reset_readByte (a : Word) : State.reset.readByte a = 0x00#8 := rfl

/-! ## The step of NOP -/

section
variable {s : State} (hr : s.status = .running)
include hr

/-- NOP itself does nothing, so its step is only the end of a step (R100). -/
theorem step_of_fetchInstr_nop (hn : s.fetchInstr = .nop) : step s = .next s.advance :=
  step_of_exec hr (by rw [hn, exec_nop])

theorem step_nop_next (hj : s.jump = none) (hn : s.fetchInstr = .nop) (hp : s.pc ≠ 0xFFFF#16) :
    step s = .next (s.setPc (s.pc + 1#16)) := by
  rw [step_of_fetchInstr_nop hr hn, State.advance_next hr hj hp]

theorem step_nop_end (hj : s.jump = none) (hn : s.fetchInstr = .nop) (hp : s.pc = 0xFFFF#16) :
    step s = .next (s.setStatus .terminated) := by
  rw [step_of_fetchInstr_nop hr hn, State.advance_end hr hj hp]

end

/-! ## The run over zero bytes -/

/-- With `n` addresses after pc, a run over zero bytes takes `n` NOP steps to 0xFFFF and one more to end there. -/
theorem runsTo_terminated_of_zero_bytes (n : Nat) {s : State} (hr : s.status = .running) (hj : s.jump = none)
    (hz : ∀ a : Word, s.pc ≤ a → s.readByte a = 0x00#8) (hn : s.pc.toNat + n = 65535) :
    runsTo s (n + 1) ((s.setPc 0xFFFF#16).setStatus .terminated) := by
  induction n generalizing s with
  | zero =>
    have hpc : s.pc = 0xFFFF#16 := by bv_omega
    have hend := step_nop_end hr hj (State.fetchInstr_of_zero (hz s.pc (BitVec.le_refl _))) hpc
    refine (runsTo_succ ..).2 ⟨_, hend, ?_⟩
    rw [runsTo_zero, ← hpc, State.setPc_self]
  | succ n ih =>
    have hpc : s.pc ≠ 0xFFFF#16 := by bv_omega
    have hnext := step_nop_next hr hj (State.fetchInstr_of_zero (hz s.pc (BitVec.le_refl _))) hpc
    refine (runsTo_succ ..).2 ⟨_, hnext, ?_⟩
    have hpos : (s.setPc (s.pc + 1#16)).pc.toNat + n = 65535 := by rw [State.setPc_pc]; bv_omega
    have hzero : ∀ a : Word, s.pc + 1#16 ≤ a → s.readByte a = 0x00#8 := fun a ha => hz a (by bv_omega)
    exact ih (s := s.setPc (s.pc + 1#16)) hr hj hzero hpos

theorem endsWell_of_zero_bytes {s : State} (hr : s.status = .running) (hj : s.jump = none)
    (hz : ∀ a : Word, s.pc ≤ a → s.readByte a = 0x00#8) : EndsWell s :=
  ⟨_, _, runsTo_terminated_of_zero_bytes (65535 - s.pc.toNat) hr hj hz (by have := s.pc.isLt; omega), rfl⟩

/-- Settles O27: NOP's step is the bare end of a step, and a run over zero bytes is such steps up to 0xFFFF. -/
theorem nopChangesNothing : Obligations.NopChangesNothing := by
  unfold Obligations.NopChangesNothing
  refine ⟨decode_zero, rfl, exec_nop, ?_, ?_, ?_⟩
  · intro s hr hj h0 hp
    exact step_nop_next hr hj (State.fetchInstr_of_zero h0) hp
  · intro a
    rw [State.reset_readByte, decode_zero]
  · intro s hr hj hz
    exact endsWell_of_zero_bytes hr hj hz

end Sys2Proof.Machine
end

section
/-! PROOFS. Family 43_load16.md: LD BC,nn, LD DE,nn and LD SP,nn (R151, R153). -/

namespace Sys2Proof.Machine

/-- The immediate word is the two bytes after the opcode in the machine's byte order (R74). -/
theorem State.immWord_of_bytes {s : State} {o : WordOrder} {b0 b1 : Byte} (ho : s.cfg.wordOrder = o)
    (h0 : s.readByte (s.pc + 1#16) = b0) (h1 : s.readByte (s.pc + 2#16) = b1) : s.immWord = wordOfBytes o b0 b1 := by
  rw [State.immWord, ho, h0, h1]

/-! ## The pairs held in two registers -/

section
variable {p : RegPair} {hi lo : Reg} (h : p.halves = some (hi, lo))
include h

/-- LD rr,nn of a pair held in two registers is the big-endian split of nn between them, and nothing else but pc. -/
theorem exec_ldRrNn_splits_bigEndian (s : State) :
    ∃ t, exec (.ldRrNn p) s = .next t ∧ t.readReg hi = hiByte s.immWord ∧ t.readReg lo = loByte s.immWord ∧
      State.sameRegsExcept [hi, lo] s t ∧ State.sameMemExcept [] s t ∧ State.sameFixed s t ∧
      State.sameControl s t ∧ t.sp = s.sp := by
  obtain ⟨hhi, hlo, -, hregs, hmem, hfixed, hctl, -, hsp⟩ :=
    State.pairWrite_splits_bigEndian h (s.setPc (s.pc + 2#16)) s.immWord
  exact ⟨_, exec_ldRrNn p s, hhi, hlo, hregs, hmem, hfixed, hctl, hsp⟩

theorem exec_ldRrNn_of_bytes {s : State} {o : WordOrder} {b0 b1 : Byte} (ho : s.cfg.wordOrder = o)
    (h0 : s.readByte (s.pc + 1#16) = b0) (h1 : s.readByte (s.pc + 2#16) = b1) :
    ∃ t, exec (.ldRrNn p) s = .next t ∧ t.readReg hi = hiByte (wordOfBytes o b0 b1) ∧
      t.readReg lo = loByte (wordOfBytes o b0 b1) := by
  obtain ⟨t, ht, hhi, hlo, -⟩ := exec_ldRrNn_splits_bigEndian h s
  rw [State.immWord_of_bytes ho h0 h1] at hhi hlo
  exact ⟨t, ht, hhi, hlo⟩

end

/-- Settles O32: BC and DE are the pairs held in two registers, and a write of such a pair is a big-endian split. -/
theorem ldBcAndDeSplitTheImmediateWord : Obligations.LdBcAndDeSplitTheImmediateWord := by
  unfold Obligations.LdBcAndDeSplitTheImmediateWord
  have hbc : RegPair.halves .bc = some (.b, .c) := rfl
  have hde : RegPair.halves .de = some (.d, .e) := rfl
  exact ⟨exec_ldRrNn_splits_bigEndian hbc, exec_ldRrNn_splits_bigEndian hde, decode_ldRrNn_layout 0b00#2,
    decode_ldRrNn_layout 0b01#2, fun _ => exec_ldRrNn_of_bytes hbc, fun _ => exec_ldRrNn_of_bytes hbc⟩

/-! ## LD SP,nn -/

theorem exec_ldRrNn_sp (s : State) : exec (.ldRrNn .sp) s = .next ((s.setPc (s.pc + 2#16)).setSp s.immWord) := by
  rw [exec_ldRrNn, State.pairWrite_sp_eq_setSp]

/-- LD SP,nn overwrites sp without reading it. -/
theorem exec_ldRrNn_sp_setSp (s : State) (v : Word) : exec (.ldRrNn .sp) (s.setSp v) = exec (.ldRrNn .sp) s := by
  rw [exec_ldRrNn_sp, exec_ldRrNn_sp]
  rfl

/-! ## Every other instruction -/

@[simp] theorem State.setSp_self (s : State) : s.setSp s.sp = s := rfl

@[simp] theorem State.setSp_fetchInstr (s : State) (v : Word) : (s.setSp v).fetchInstr = s.fetchInstr := rfl

/-- SP is the only pair whose write touches sp (R26). -/
theorem State.setSp_pairWrite {p : RegPair} (h : p ≠ .sp) (s : State) (v w : Word) :
    (s.setSp v).pairWrite p w = (s.pairWrite p w).setSp v := by
  cases p with
  | sp => exact absurd rfl h
  | bc | de | hl => rfl

/-- Every instruction but LD SP,nn does the same whatever sp is, and carries sp along. -/
theorem exec_setSp {i : Instr} (hi : i ≠ .ldRrNn .sp) (s : State) (v : Word) :
    exec i (s.setSp v) = mapNext (fun t => t.setSp v) (exec i s) := by
  cases i with
  | ldRrNn p =>
    have hp : p ≠ .sp := fun h => hi (by rw [h])
    rw [exec_ldRrNn, exec_ldRrNn, mapNext, ← State.setSp_pairWrite hp]
    rfl
  | nop | ldRHl | ldRR | ldRN | addAR | jpNn | illegal => rfl

/-! ## Steps -/

/-- A step sees its state through the status and what executing the instruction at pc gives. -/
theorem step_congr {s t : State} (hs : t.status = s.status) (he : exec t.fetchInstr t = exec s.fetchInstr s) :
    step t = step s := by
  unfold step
  rw [hs, he]

theorem step_setSp_of_ldSp {s : State} (hi : s.fetchInstr = .ldRrNn .sp) (v : Word) : step (s.setSp v) = step s :=
  step_congr (s.setSp_status v) (by rw [State.setSp_fetchInstr, hi, exec_ldRrNn_sp_setSp])

theorem step_setSp {s : State} (hi : s.fetchInstr ≠ .ldRrNn .sp) (v : Word) :
    step (s.setSp v) = mapNext (fun t => t.setSp v) (step s) := by
  have hexec : ∀ u, exec s.fetchInstr s = .next u → exec s.fetchInstr (s.setSp v) = .next (u.setSp v) :=
    fun u hu => by rw [exec_setSp hi, hu, mapNext]
  exact step_commutes (fun t => t.setSp v) (fun _ => rfl) (fun _ => rfl) (fun _ => rfl) (fun _ _ => rfl)
    (fun _ _ => rfl) (fun _ _ => rfl) s (s.setSp_fetchInstr v) hexec

/-- The step taken with the sp the state already has shows that the step keeps it. -/
theorem step_keeps_sp {s t : State} (ht : step s = .next t) (hi : s.fetchInstr ≠ .ldRrNn .sp) : t.sp = s.sp := by
  have hself := step_setSp hi s.sp
  rw [State.setSp_self, ht, mapNext] at hself
  have hsp : t = t.setSp s.sp := Host.Outcome.next.inj hself
  rw [hsp, State.setSp_sp]

/-- Settles O35: executing anything but LD SP,nn commutes with a change of sp, and LD SP,nn overwrites it. -/
theorem ldSpIsTheOnlyUseOfSp : Obligations.LdSpIsTheOnlyUseOfSp := by
  unfold Obligations.LdSpIsTheOnlyUseOfSp
  refine ⟨decode_ldRrNn_layout 0b11#2, fun s => ⟨_, exec_ldRrNn_sp s, ?_⟩, fun _ _ => step_keeps_sp,
    fun _ v hi => step_setSp hi v, fun _ v hi => step_setSp_of_ldSp hi v, ?_⟩
  · exact ⟨State.setSp_sp .., fun _ _ => rfl, fun _ _ => rfl, ⟨rfl, rfl, rfl, rfl⟩, ⟨rfl, rfl⟩⟩
  · intro s ho h0 h1
    refine ⟨_, exec_ldRrNn_sp s, ?_⟩
    rw [State.setSp_sp, State.immWord_of_bytes ho h0 h1]
    rfl

end Sys2Proof.Machine
end

section
/-! PROOFS. Family 44_add_alu.md: the result and the flags of an addition (R171 to R177). -/

namespace Sys2Proof.Machine

/-- The top bit of a number of `i + 1` bits says whether the number needs that bit. -/
theorem testBit_eq_decide_of_lt {n i : Nat} (h : n < 2 ^ (i + 1)) : n.testBit i = decide (2 ^ i ≤ n) := by
  by_cases hle : 2 ^ i ≤ n
  · rw [Nat.testBit_of_two_pow_le_and_two_pow_add_one_gt hle h, decide_eq_true hle]
  · rw [Nat.testBit_lt_two_pow (Nat.lt_of_not_le hle), decide_eq_false hle]

/-! ## The result -/

/-- The sum wraps at 256 (R171). -/
theorem aluAdd_result_toNat (l r : Byte) : (aluAdd l r).1.toNat = (l.toNat + r.toNat) % 256 := BitVec.toNat_add l r

theorem aluAdd_result_eq_zero {l r : Byte} (h : l.toNat + r.toNat = 0x100) : (aluAdd l r).1 = 0x00#8 :=
  BitVec.eq_of_toNat_eq (by rw [aluAdd_result_toNat, h]; rfl)

/-! ## The flags -/

/-- The bits of the flags byte of an addition, from bit 7 down to bit 0 (R178). -/
theorem aluAdd_flags_bits (l r : Byte) :
    (aluAdd l r).2.getLsbD 7 = addSign l r ∧ (aluAdd l r).2.getLsbD 6 = addZero l r ∧
    (aluAdd l r).2.getLsbD 5 = false ∧ (aluAdd l r).2.getLsbD 4 = addHalfCarry l r ∧
    (aluAdd l r).2.getLsbD 3 = false ∧ (aluAdd l r).2.getLsbD 2 = addOverflow l r ∧
    (aluAdd l r).2.getLsbD 1 = addSubtract ∧ (aluAdd l r).2.getLsbD 0 = addCarry l r :=
  packFlags_bits ..

theorem addCarry_iff (l r : Byte) : addCarry l r = true ↔ l.toNat + r.toNat > 0xFF := decide_eq_true_iff

/-- C is the ninth bit of the sum (R172). -/
theorem addCarry_eq_testBit (l r : Byte) : addCarry l r = (l.toNat + r.toNat).testBit 8 := by
  have hsum : l.toNat + r.toNat < 2 ^ (8 + 1) := by omega
  rw [testBit_eq_decide_of_lt hsum]
  rfl

theorem addHalfCarry_iff (l r : Byte) :
    addHalfCarry l r = true ↔ (l &&& 0xF#8).toNat + (r &&& 0xF#8).toNat > 0xF := decide_eq_true_iff

theorem toNat_and_lowNibble (x : Byte) : (x &&& 0xF#8).toNat = x.toNat % 16 := by
  rw [BitVec.toNat_and]
  exact Nat.and_two_pow_sub_one_eq_mod x.toNat 4

/-- H is the fifth bit of the sum of the low nibbles (R173). -/
theorem addHalfCarry_eq_testBit (l r : Byte) :
    addHalfCarry l r = (l.toNat % 16 + r.toNat % 16).testBit 4 := by
  have hsum : l.toNat % 16 + r.toNat % 16 < 2 ^ (4 + 1) := by omega
  rw [testBit_eq_decide_of_lt hsum, addHalfCarry, toNat_and_lowNibble, toNat_and_lowNibble]
  rfl

theorem addSign_eq_result_bit (l r : Byte) : addSign l r = (aluAdd l r).1.getLsbD 7 := rfl

theorem addZero_iff (l r : Byte) : addZero l r = true ↔ (aluAdd l r).1 = 0x00#8 := decide_eq_true_iff

/-- Settles O24: each bit of the flags byte is its flag, and C and H are the bits carried out of a byte and a nibble. -/
theorem aluResultAndUnsignedFlags : Obligations.AluResultAndUnsignedFlags := by
  unfold Obligations.AluResultAndUnsignedFlags
  intro l r
  obtain ⟨hS, hZ, h5, hH, h3, -, hN, hC⟩ := aluAdd_flags_bits l r
  rw [hS, hZ, h5, hH, h3, hN, hC]
  have hzero : l.toNat + r.toNat = 0x100 → (aluAdd l r).1 = 0x00#8 ∧ addZero l r = true ∧ addCarry l r = true := by
    intro hsum
    have hres := aluAdd_result_eq_zero hsum
    exact ⟨hres, (addZero_iff l r).2 hres, (addCarry_iff l r).2 (by omega)⟩
  exact ⟨aluAdd_result_toNat l r, addCarry_iff l r, addCarry_eq_testBit l r, addHalfCarry_iff l r,
    addHalfCarry_eq_testBit l r, addSign_eq_result_bit l r, addZero_iff l r, hzero, rfl, rfl, rfl⟩

end Sys2Proof.Machine
end

section
/-! PROOFS. The decoder and its ROM against the encoder (30_encoding.md R70 to R80). -/

namespace Sys2Proof

/-! ## Reading back what was encoded -/

theorem Encoded.wf_iff (e : Encoded) :
    e.wf = true ↔ e.instr.wf = true ∧ e.operands.length = e.instr.operandCount := by
  rw [Encoded.wf, Bool.and_eq_true, decide_eq_true_iff]

theorem encodeBytes_length {e : Encoded} (h : e.wf = true) : (encodeBytes e).length = e.instr.length := by
  obtain ⟨-, hlen⟩ := e.wf_iff.1 h
  rw [encodeBytes, List.length_cons, hlen, Instr.length]

theorem Instr.operandCount_le_two (i : Instr) : i.operandCount ≤ 2 := by cases i <;> simp [Instr.operandCount]

theorem encodeBytes_length_le {e : Encoded} (h : e.wf = true) : (encodeBytes e).length ≤ 65536 := by
  have hcount := e.instr.operandCount_le_two
  rw [encodeBytes_length h, Instr.length]
  omega

theorem decodeBytes_encodeBytes_append {e : Encoded} (h : e.wf = true) (rest : List Byte) :
    decodeBytes (encodeBytes e ++ rest) = .ok (e, rest) := by
  obtain ⟨hwf, hlen⟩ := e.wf_iff.1 h
  have hdec : decode (encode e.instr) = e.instr := decode_encode hwf
  have hle : (decode (encode e.instr)).operandCount ≤ (e.operands ++ rest).length := by
    rw [hdec, ← hlen, List.length_append]
    exact Nat.le_add_right ..
  rw [encodeBytes, List.cons_append, decodeBytes_cons_of_le hle, hdec, ← hlen, List.take_left, List.drop_left]

/-- Settles O10: the opcode decodes to its instruction, whose operand count then cuts the operand bytes off the rest. -/
theorem encodedInstructionsDecodeBack : Obligations.EncodedInstructionsDecodeBack := by
  unfold Obligations.EncodedInstructionsDecodeBack
  exact fun e rest h => ⟨decodeBytes_encodeBytes_append h rest, encodeBytes_length h⟩

/-! ## Every opcode -/

theorem encode_decode (op : Byte) : encode (decode op) = op := by revert op; decide

theorem decode_wf (op : Byte) : (decode op).wf = true := by revert op; decide

/-- Settles O9: both parts are checked opcode by opcode. -/
theorem everyOpcodeIsTheEncodingOfItsDecode : Obligations.EveryOpcodeIsTheEncodingOfItsDecode := by
  unfold Obligations.EveryOpcodeIsTheEncodingOfItsDecode
  exact fun op => ⟨encode_decode op, decode_wf op⟩

/-- The illegal opcodes are those R78 lists: a listed one is well formed as `illegal`, so it decodes back to it. -/
theorem decode_eq_illegal_self_iff (op : Byte) : decode op = .illegal op ↔ isIllegalOpcode op = true := by
  constructor
  · intro h
    have hwf := decode_wf op
    rwa [h] at hwf
  · intro h
    exact decode_encode (i := .illegal op) h

theorem decode_eq_illegal_iff (op x : Byte) : decode op = .illegal x ↔ op = x ∧ isIllegalOpcode x = true := by
  constructor
  · intro h
    obtain rfl := eq_of_decode_illegal h
    exact ⟨rfl, (decode_eq_illegal_self_iff x).1 h⟩
  · rintro ⟨rfl, h⟩
    exact (decode_eq_illegal_self_iff op).2 h

/-- How many opcodes each form has (R77). -/
def InstrKind.opcodeCount : InstrKind → Nat
  | .NOP => 1
  | .LD_R_HL => 8
  | .LD_R_R => 56
  | .LD_R_N => 8
  | .LD_RR_NN => 4
  | .ADD_A_R => 8
  | .JP_NN => 1
  | .ILLEGAL => 170

theorem rom_filter_kind_length (k : InstrKind) :
    (rom.filter fun w => decide (w.kind = k)).length = k.opcodeCount := by
  cases k <;> rfl

/-- Settles O8: the list of R78 by the round trip of encode and decode, the counts by going through the ROM. -/
theorem illegalOpcodesAreTheListed170 : Obligations.IllegalOpcodesAreTheListed170 := by
  unfold Obligations.IllegalOpcodesAreTheListed170
  exact ⟨decode_eq_illegal_self_iff, fun _ _ => eq_of_decode_illegal, rom_filter_kind_length⟩

/-- Settles O11: each word is the encoding of the instruction it is said to decode to. -/
theorem sampleOpcodesDecodeAsTheLayoutSays : Obligations.SampleOpcodesDecodeAsTheLayoutSays := by
  unfold Obligations.SampleOpcodesDecodeAsTheLayoutSays
  exact ⟨decode_encode (i := .nop) rfl, decode_encode (i := .ldRHl .f) rfl, decode_encode (i := .ldRR .b .a) rfl,
    decode_encode (i := .ldRN .f) rfl, decode_encode (i := .ldRrNn .hl) rfl, decode_encode (i := .addAR .f) rfl,
    decode_encode (i := .jpNn) rfl, decode_encode (i := .illegal 0xCB#8) rfl⟩

/-! ## The (mask, match) pairs of R75 -/

/-- Each field condition of `decode` is one comparison under a mask. -/
theorem opField_conditions_iff_mask (op : Byte) :
    (opField op 6 2 = 0b01#2 ∧ opField op 0 3 = 0b110#3 ↔ op &&& 0xC7#8 = 0x46#8) ∧
    (opField op 6 2 = 0b01#2 ↔ op &&& 0xC0#8 = 0x40#8) ∧
    (opField op 6 2 = 0b00#2 ∧ opField op 0 3 = 0b110#3 ↔ op &&& 0xC7#8 = 0x06#8) ∧
    (opField op 6 2 = 0b00#2 ∧ opField op 0 4 = 0b0001#4 ↔ op &&& 0xCF#8 = 0x01#8) ∧
    (opField op 3 5 = 0b10000#5 ↔ op &&& 0xF8#8 = 0x80#8) := by
  revert op; decide

theorem and_mask_all (op : Byte) : op &&& 0xFF#8 = op := BitVec.and_allOnes

theorem decode_kind_eq_firstMatch (op : Byte) : (decode op).kind = firstMatch maskMatchRows op := by
  obtain ⟨hHl, hRR, hRN, hRrNn, hAdd⟩ := opField_conditions_iff_mask op
  simp only [decode, maskMatchRows, firstMatch, hHl, hRN, hRrNn, hAdd, and_mask_all]
  simp only [hRR]
  split_ifs <;> rfl

/-- Two patterns that one opcode matches agree on the bits that both masks keep. -/
theorem matches_agree_on_common_mask {op m m' p p' : Byte} (h : op &&& m = p) (h' : op &&& m' = p') :
    p &&& m' = p' &&& m := by
  rw [← h, ← h', BitVec.and_assoc, BitVec.and_assoc, BitVec.and_comm m m']

/-- Of the seven pairs only those of LD r,(HL) and LD r,r' agree where both masks keep a bit. -/
theorem maskMatchRows_overlap : ∀ x ∈ maskMatchRows, ∀ y ∈ maskMatchRows, x.2.1 &&& y.1 = y.2.1 &&& x.1 → x ≠ y →
    (x.2.2 = .LD_R_HL ∧ y.2.2 = .LD_R_R) ∨ (x.2.2 = .LD_R_R ∧ y.2.2 = .LD_R_HL) := by
  decide

/-- Settles O7: field conditions are mask conditions, and two pairs overlap only where their common bits agree. -/
theorem decodeIsTheFirstMatchingPattern : Obligations.DecodeIsTheFirstMatchingPattern := by
  unfold Obligations.DecodeIsTheFirstMatchingPattern
  refine ⟨decode_kind_eq_firstMatch, ?_, decode_encode (i := .ldRHl .f) rfl⟩
  intro op x hx y hy hmx hmy hne
  exact maskMatchRows_overlap x hx y hy (matches_agree_on_common_mask hmx hmy) hne

/-! ## The ROM -/

theorem rom_length : rom.length = 256 := by simp [rom]

theorem rom_getElem?_opcode (op : Byte) : rom[op.toNat]? = some (romWord (decode op)) := by
  have hlt : op.toNat < 256 := op.isLt
  simp [rom, List.getElem?_range hlt]

/-! The places of the selector fields in an opcode (R71). -/

theorem extract_high_selector (x : BitVec 2) (d s : BitVec 3) : (x ++ d ++ s : Byte).extractLsb' 3 3 = d := by
  revert x d s; decide

theorem extract_low_selector (x : BitVec 5) (s : BitVec 3) : (x ++ s : Byte).extractLsb' 0 3 = s := by
  revert x s; decide

theorem extract_pair_selector (x p : BitVec 2) (y : BitVec 4) : (x ++ p ++ y : Byte).extractLsb' 4 2 = p := by
  revert x p y; decide

/-- A ROM word's first register selector is the field of the opcode, where the kind has one. -/
theorem romWord_d (i : Instr) : (romWord i).d =
    match i.kind with
    | .LD_R_HL | .LD_R_R | .LD_R_N => (encode i).extractLsb' 3 3
    | .NOP | .LD_RR_NN | .ADD_A_R | .JP_NN | .ILLEGAL => 0b000#3 := by
  cases i with
  | ldRHl | ldRR | ldRN => exact (extract_high_selector ..).symm
  | nop | ldRrNn | addAR | jpNn | illegal => rfl

/-- A ROM word's second register selector is the field of the opcode, where the kind has one. -/
theorem romWord_s (i : Instr) : (romWord i).s =
    match i.kind with
    | .LD_R_R | .ADD_A_R => (encode i).extractLsb' 0 3
    | .NOP | .LD_R_HL | .LD_R_N | .LD_RR_NN | .JP_NN | .ILLEGAL => 0b000#3 := by
  cases i with
  | ldRR | addAR => exact (extract_low_selector ..).symm
  | nop | ldRHl | ldRN | ldRrNn | jpNn | illegal => rfl

/-- A ROM word's pair selector is the field of the opcode, where the kind has one. -/
theorem romWord_p (i : Instr) : (romWord i).p =
    match i.kind with
    | .LD_RR_NN => (encode i).extractLsb' 4 2
    | .NOP | .LD_R_HL | .LD_R_R | .LD_R_N | .ADD_A_R | .JP_NN | .ILLEGAL => 0b00#2 := by
  cases i with
  | ldRrNn => exact (extract_pair_selector ..).symm
  | nop | ldRHl | ldRR | ldRN | addAR | jpNn | illegal => rfl

/-- Settles O12: a ROM word is read off its instruction, whose encoding is the opcode that selects the word. -/
theorem romHoldsOneWordPerOpcode : Obligations.RomHoldsOneWordPerOpcode := by
  unfold Obligations.RomHoldsOneWordPerOpcode
  refine ⟨rom_length, rom_getElem?_opcode, fun op => ?_⟩
  have hd := romWord_d (decode op)
  have hs := romWord_s (decode op)
  have hp := romWord_p (decode op)
  rw [encode_decode] at hd hs hp
  exact ⟨encode_decode op, rfl, rfl, rfl, hd, hs, hp⟩

end Sys2Proof
end

section
/-! PROOFS. Registers, reset and launch (10_state.md R22, R34; 70_reset_and_hazards.md R260, R262). -/

namespace Sys2Proof.Machine

/-! ## Writing one register -/

theorem State.writeReg_sameRegsExcept (s : State) (q : Reg) (v : Byte) :
    State.sameRegsExcept [q] s (s.writeReg q v) := fun p hp => by
  rw [State.writeReg_readReg_other _ _ (by simpa using hp)]

/-- A register write touches nothing but the register. -/
theorem State.writeReg_frame (s : State) (q : Reg) (v : Byte) :
    State.sameRegsExcept [q] s (s.writeReg q v) ∧ State.sameMemExcept [] s (s.writeReg q v) ∧
    State.sameFixed s (s.writeReg q v) ∧ State.sameControl s (s.writeReg q v) ∧ (s.writeReg q v).pc = s.pc ∧
    (s.writeReg q v).sp = s.sp :=
  ⟨s.writeReg_sameRegsExcept q v, fun _ _ => rfl, ⟨rfl, rfl, rfl, rfl⟩, ⟨rfl, rfl⟩, rfl, rfl⟩

/-- Settles O13: the register file stores the byte, and the write touches nothing else. -/
theorem registerWritesStoreAllEightBits : Obligations.RegisterWritesStoreAllEightBits := by
  unfold Obligations.RegisterWritesStoreAllEightBits
  exact fun s q v => ⟨s.writeReg_readReg_same q v, s.writeReg_frame q v⟩

/-! ## Reset and launch -/

theorem State.reset_readReg (q : Reg) : State.reset.readReg q = 0x00#8 := by cases q <;> rfl

/-- Settles O1: reset writes out every element. -/
theorem resetIsTheConstructionState : Obligations.ResetIsTheConstructionState := by
  unfold Obligations.ResetIsTheConstructionState
  exact ⟨State.reset_readReg, State.reset_readByte, rfl, rfl, rfl, rfl, rfl, rfl, rfl, rfl⟩

theorem State.reset_launchable : State.reset.launchable := ⟨Memory.nil_wf, rfl, rfl⟩

/-- A running state meets the clauses of the run invariant about ended runs. -/
theorem State.inv_of_running {s : State} (hwf : s.mem.wf = true) (hj : s.jump = none) (hr : s.status = .running) :
    s.Inv := by
  refine ⟨hwf, hj, ?_, ?_⟩
  · intro h
    rw [hr] at h
    cases h
  · intro op opAddr h
    rw [hr] at h
    cases h

theorem State.inv_of_launchable {s : State} (h : s.launchable) : s.Inv := by
  obtain ⟨hwf, hj, hr⟩ := h
  exact State.inv_of_running hwf hj hr

theorem State.loadBytes_launchable {s : State} (a : Word) (vs : List Byte) (h : s.launchable) :
    (s.loadBytes a vs).launchable := by
  obtain ⟨hwf, hj, hr⟩ := h
  refine ⟨State.loadBytes_wf hwf a vs, ?_, ?_⟩
  · rw [State.loadBytes_eq_withMem, State.withMem_jump, hj]
  · rw [State.loadBytes_eq_withMem, State.withMem_status, hr]

/-- Settles O2: a launch state is running, and loading bytes changes memory alone. -/
theorem launchStatesMeetTheRunInvariant : Obligations.LaunchStatesMeetTheRunInvariant := by
  unfold Obligations.LaunchStatesMeetTheRunInvariant
  exact ⟨State.inv_of_launchable State.reset_launchable, State.reset_launchable, fun _ => State.inv_of_launchable,
    fun _ => State.loadBytes_launchable⟩

end Sys2Proof.Machine
end

section
/-! PROOFS. Memory: words, pair HL, equality of memories, and loaded bytes (20_memory.md R50 to R60; 10_state.md R25;
70_reset_and_hazards.md R262). -/

namespace Sys2Proof.Machine

/-! ## Words -/

section
variable {s : State} (h : s.mem.wf = true) (a v : Word)
include h

theorem State.writeWord_readByte_self : (s.writeWord a v).readByte a = lowAddrByte s.cfg.wordOrder v := by
  rw [State.writeWord_readByte h, if_neg (self_ne_succ a), if_pos rfl]

theorem State.writeWord_readByte_succ :
    (s.writeWord a v).readByte (a + 1#16) = highAddrByte s.cfg.wordOrder v := by
  rw [State.writeWord_readByte h, if_pos rfl]

theorem State.writeWord_readWord_self : (s.writeWord a v).readWord a = v := by
  rw [State.readWord, State.writeWord_readByte_self h, State.writeWord_readByte_succ h]
  exact wordOfBytes_addrBytes ..

theorem State.writeWord_sameMemExcept : State.sameMemExcept [a, a + 1#16] s (s.writeWord a v) := by
  intro b hb
  obtain ⟨h0, h1⟩ : b ≠ a ∧ b ≠ a + 1#16 := by simpa using hb
  rw [State.writeWord_readByte h, if_neg h1, if_neg h0]

/-- The bytes of a word written, little-endian (R60). -/
theorem State.writeWord_bytes_little (ho : s.cfg.wordOrder = .little) :
    (s.writeWord a v).readByte a = loByte v ∧ (s.writeWord a v).readByte (a + 1#16) = hiByte v := by
  rw [State.writeWord_readByte_self h, State.writeWord_readByte_succ h, ho]
  exact ⟨rfl, rfl⟩

/-- The bytes of a word written, big-endian (R60). -/
theorem State.writeWord_bytes_big (ho : s.cfg.wordOrder = .big) :
    (s.writeWord a v).readByte a = hiByte v ∧ (s.writeWord a v).readByte (a + 1#16) = loByte v := by
  rw [State.writeWord_readByte_self h, State.writeWord_readByte_succ h, ho]
  exact ⟨rfl, rfl⟩

end

/-- Settles O17: the two bytes of a word access stand at different addresses, each in its place by the byte order. -/
theorem wordAccessFollowsWordOrder : Obligations.WordAccessFollowsWordOrder := by
  unfold Obligations.WordAccessFollowsWordOrder
  exact fun s a v h => ⟨State.writeWord_readWord_self h a v, State.writeWord_bytes_little h a v,
    State.writeWord_bytes_big h a v, State.writeWord_sameMemExcept h a v, State.writeWord_wf h a v⟩

/-! ## Pair HL -/

theorem State.hlConcat_eq_append (s : State) : s.hlConcat = s.readReg .h ++ s.readReg .l := rfl

theorem State.pairRead_hl_eq_readWord (s : State) : s.pairRead .hl = s.readWord s.hlConcat := rfl

theorem State.pairWrite_hl_eq_writeWord (s : State) (v : Word) : s.pairWrite .hl v = s.writeWord s.hlConcat v := rfl

theorem State.writeWord_hlConcat (s : State) (a v : Word) : (s.writeWord a v).hlConcat = s.hlConcat := rfl

theorem State.pairWrite_hl_pairRead {s : State} (h : s.mem.wf = true) (v : Word) :
    (s.pairWrite .hl v).pairRead .hl = v := by
  rw [State.pairRead_hl_eq_readWord, State.pairWrite_hl_eq_writeWord, State.writeWord_hlConcat]
  exact State.writeWord_readWord_self h _ v

theorem State.pairRead_hl_little {s : State} (ho : s.cfg.wordOrder = .little) :
    s.pairRead .hl = joinBytes (s.readByte (s.hlConcat + 1#16)) (s.readByte s.hlConcat) := by
  rw [State.pairRead_hl_eq_readWord, State.readWord, ho, wordOfBytes]

theorem State.pairRead_hl_big {s : State} (ho : s.cfg.wordOrder = .big) :
    s.pairRead .hl = joinBytes (s.readByte s.hlConcat) (s.readByte (s.hlConcat + 1#16)) := by
  rw [State.pairRead_hl_eq_readWord, State.readWord, ho, wordOfBytes]

/-- Settles O16: a write of pair HL is the word write at {H, L}. -/
theorem pairHlIsTheMemoryWordAtHl : Obligations.PairHlIsTheMemoryWordAtHl := by
  unfold Obligations.PairHlIsTheMemoryWordAtHl
  intro s v h
  exact ⟨fun ho => ⟨State.pairRead_hl_little ho, State.writeWord_bytes_little h _ v ho⟩,
    fun ho => ⟨State.pairRead_hl_big ho, State.writeWord_bytes_big h _ v ho⟩,
    State.pairWrite_hl_pairRead h v, fun _ _ => rfl, State.writeWord_sameMemExcept h _ v,
    s.pairWrite_sameFixed .hl v, s.pairWrite_sameControl .hl v, rfl, rfl⟩

/-! ## Equality of memories -/

/-- What the head of a canonical memory says: its cell is in the space and listed for a reason; the rest follows it. -/
theorem Memory.wfFrom_cons {lo k : Nat} {x : Byte} {m : Memory} (h : Memory.wfFrom lo ((k, x) :: m) = true) :
    k < 65536 ∧ x ≠ unlistedByte ∧ Memory.wfFrom (k + 1) m = true := by
  simp only [Memory.wfFrom, Bool.and_eq_true, decide_eq_true_eq] at h
  obtain ⟨⟨⟨-, hk⟩, hx⟩, hm⟩ := h
  exact ⟨hk, hx, hm⟩

theorem Memory.lookup_cons_self (k : Nat) (x : Byte) (m : Memory) : Memory.lookup ((k, x) :: m) k = x := if_pos rfl

theorem Memory.lookup_cons_of_ne {j k : Nat} (h : j ≠ k) (x : Byte) (m : Memory) :
    Memory.lookup ((j, x) :: m) k = m.lookup k := if_neg h

/-- A canonical memory reads as listed at its first cell and nowhere before it, so the first cells of two canonical
memories that read alike have the same address. -/
theorem Memory.head_not_lt {lo lo' j k : Nat} {x y : Byte} {m n : Memory}
    (hm : Memory.wfFrom lo ((j, x) :: m) = true) (hn : Memory.wfFrom lo' ((k, y) :: n) = true)
    (heq : ∀ i < 65536, Memory.lookup ((j, x) :: m) i = Memory.lookup ((k, y) :: n) i) : ¬ j < k := by
  intro hlt
  obtain ⟨hj, hx, -⟩ := Memory.wfFrom_cons hm
  obtain ⟨-, -, hn'⟩ := Memory.wfFrom_cons hn
  have hread := heq j hj
  rw [Memory.lookup_cons_self, Memory.lookup_cons_of_ne (by omega), Memory.lookup_below hn' (by omega)] at hread
  exact hx hread

theorem Memory.eq_of_lookup_eq {m n : Memory} {lo lo' : Nat} (hm : Memory.wfFrom lo m = true)
    (hn : Memory.wfFrom lo' n = true) (heq : ∀ i < 65536, m.lookup i = n.lookup i) : m = n := by
  induction m generalizing n lo lo' with
  | nil =>
    cases n with
    | nil => rfl
    | cons c n =>
      obtain ⟨k, y⟩ := c
      obtain ⟨hk, hy, -⟩ := Memory.wfFrom_cons hn
      exact absurd ((heq k hk).trans (Memory.lookup_cons_self k y n)).symm hy
  | cons c m ih =>
    obtain ⟨j, x⟩ := c
    obtain ⟨hj, hx, hm'⟩ := Memory.wfFrom_cons hm
    cases n with
    | nil => exact absurd ((Memory.lookup_cons_self j x m).symm.trans (heq j hj)) hx
    | cons c n =>
      obtain ⟨k, y⟩ := c
      obtain ⟨-, -, hn'⟩ := Memory.wfFrom_cons hn
      obtain rfl : j = k := by
        have h1 := Memory.head_not_lt hm hn heq
        have h2 := Memory.head_not_lt hn hm fun i hi => (heq i hi).symm
        omega
      have hxy := heq j hj
      rw [Memory.lookup_cons_self, Memory.lookup_cons_self] at hxy
      have htail : ∀ i < 65536, Memory.lookup m i = Memory.lookup n i := by
        intro i hi
        by_cases hij : j = i
        · rw [Memory.lookup_below hm' (by omega), Memory.lookup_below hn' (by omega)]
        · have hi' := heq i hi
          rwa [Memory.lookup_cons_of_ne hij, Memory.lookup_cons_of_ne hij] at hi'
      rw [hxy, ih hm' hn' htail]

/-- Settles O18: by induction on the first memory, the first cells agree and so do the rests. -/
theorem equalMemoriesAreEqualData : Obligations.EqualMemoriesAreEqualData := by
  unfold Obligations.EqualMemoriesAreEqualData
  intro m n hm hn heq
  refine Memory.eq_of_lookup_eq hm hn fun i hi => ?_
  have hread := heq (BitVec.ofNat 16 i)
  rwa [Memory.read, Memory.read, BitVec.toNat_ofNat, Nat.mod_eq_of_lt hi] at hread

/-! ## Loaded bytes -/

/-- The k-th address from `a + 1` on is the (k+1)-th from `a` on. -/
theorem succ_add_ofNat (a : Word) (k : Nat) : a + 1#16 + BitVec.ofNat 16 k = a + BitVec.ofNat 16 (k + 1) := by
  rw [BitVec.add_assoc, ← BitVec.ofNat_add, Nat.add_comm 1 k]

theorem add_ofNat_zero (a : Word) : a + BitVec.ofNat 16 0 = a := BitVec.add_zero a

theorem State.loadBytes_readByte_other {s : State} (h : s.mem.wf = true) {a b : Word} {vs : List Byte}
    (hb : ∀ k, k < vs.length → b ≠ a + BitVec.ofNat 16 k) : (s.loadBytes a vs).readByte b = s.readByte b := by
  induction vs generalizing s a with
  | nil => rfl
  | cons v vs ih =>
    have hrest : ∀ k, k < vs.length → b ≠ a + 1#16 + BitVec.ofNat 16 k := fun k hk => by
      rw [succ_add_ofNat]
      exact hb (k + 1) (Nat.succ_lt_succ hk)
    have hne : b ≠ a := by
      have h0 := hb 0 (Nat.zero_lt_succ _)
      rwa [add_ofNat_zero] at h0
    rw [State.loadBytes, ih (State.writeByte_wf h a v) hrest, State.writeByte_readByte h, if_neg hne]

/-- In a program that fits the space, no later byte comes back to the first one's address. -/
theorem self_ne_succ_add_ofNat (a : Word) {k : Nat} (hk : k + 1 < 65536) : a ≠ a + 1#16 + BitVec.ofNat 16 k := by
  rw [succ_add_ofNat]
  bv_omega

theorem State.loadBytes_readByte {s : State} (h : s.mem.wf = true) (a : Word) {vs : List Byte}
    (hlen : vs.length ≤ 65536) (k : Nat) (hk : k < vs.length) :
    (s.loadBytes a vs).readByte (a + BitVec.ofNat 16 k) = vs[k] := by
  induction vs generalizing s a k with
  | nil => cases hk
  | cons v vs ih =>
    rw [List.length_cons] at hlen hk
    have hwf := State.writeByte_wf h a v
    cases k with
    | zero =>
      have hne : ∀ k, k < vs.length → a ≠ a + 1#16 + BitVec.ofNat 16 k := fun k hk =>
        self_ne_succ_add_ofNat a (by omega)
      rw [add_ofNat_zero, State.loadBytes, State.loadBytes_readByte_other hwf hne, State.writeByte_readByte h,
        if_pos rfl, List.getElem_cons_zero]
    | succ k =>
      rw [← succ_add_ofNat, State.loadBytes, List.getElem_cons_succ]
      exact ih hwf (a + 1#16) (by omega) k (by omega)

/-- Settles O19: by induction on the bytes, none of which comes back to an earlier one's address. -/
theorem programBytesLoadAtConsecutiveAddresses : Obligations.ProgramBytesLoadAtConsecutiveAddresses := by
  unfold Obligations.ProgramBytesLoadAtConsecutiveAddresses
  intro s a vs h hlen
  exact ⟨State.loadBytes_readByte h a hlen, fun _ => State.loadBytes_readByte_other h, State.loadBytes_wf h a vs,
    s.loadBytes_eq_withMem a vs⟩

/-! ## A loaded instruction -/

theorem State.loadBytes_pc (s : State) (a : Word) (vs : List Byte) : (s.loadBytes a vs).pc = s.pc := by
  rw [State.loadBytes_eq_withMem, State.withMem_pc]

theorem State.loadBytes_cfg (s : State) (a : Word) (vs : List Byte) : (s.loadBytes a vs).cfg = s.cfg := by
  rw [State.loadBytes_eq_withMem, State.withMem_cfg]

section
variable {s : State} {e : Encoded} (h : s.mem.wf = true) (he : e.wf = true)
include h he

theorem State.loadBytes_encodeBytes_fetchInstr : (s.loadBytes s.pc (encodeBytes e)).fetchInstr = e.instr := by
  have hop := State.loadBytes_readByte h s.pc (encodeBytes_length_le he) 0 (Nat.zero_lt_succ _)
  rw [add_ofNat_zero] at hop
  obtain ⟨hwf, -⟩ := e.wf_iff.1 he
  rw [State.fetchInstr, State.fetchOpcode, State.loadBytes_pc, hop]
  exact decode_encode hwf

/-- The operand bytes of an instruction loaded at pc follow it there. -/
theorem State.loadBytes_encodeBytes_readByte (k : Nat) (hk : k < e.operands.length) :
    (s.loadBytes s.pc (encodeBytes e)).readByte (s.pc + BitVec.ofNat 16 (k + 1)) = e.operands[k] :=
  State.loadBytes_readByte h s.pc (encodeBytes_length_le he) (k + 1) (Nat.succ_lt_succ hk)

theorem State.loadBytes_encodeBytes_immByte {n : Byte} (hn : e.operands = [n]) :
    (s.loadBytes s.pc (encodeBytes e)).immByte = n := by
  have hread := State.loadBytes_encodeBytes_readByte h he 0 (by simp [hn])
  simp only [hn, List.getElem_cons_zero] at hread
  rw [State.immByte, State.loadBytes_pc]
  exact hread

theorem State.loadBytes_encodeBytes_immWord {b0 b1 : Byte} {o : WordOrder} (hn : e.operands = [b0, b1])
    (ho : s.cfg.wordOrder = o) : (s.loadBytes s.pc (encodeBytes e)).immWord = wordOfBytes o b0 b1 := by
  have hread0 := State.loadBytes_encodeBytes_readByte h he 0 (by simp [hn])
  have hread1 := State.loadBytes_encodeBytes_readByte h he 1 (by simp [hn])
  simp only [hn, List.getElem_cons_zero, List.getElem_cons_succ] at hread0 hread1
  refine State.immWord_of_bytes ?_ ?_ ?_
  · rw [State.loadBytes_cfg, ho]
  · rw [State.loadBytes_pc]
    exact hread0
  · rw [State.loadBytes_pc]
    exact hread1

end

/-- Settles O20: the bytes loaded at pc are read back there, the opcode decodes back, the operand bytes follow. -/
theorem loadedInstructionIsTheOneFetched : Obligations.LoadedInstructionIsTheOneFetched := by
  unfold Obligations.LoadedInstructionIsTheOneFetched
  intro s e h he
  exact ⟨State.loadBytes_encodeBytes_fetchInstr h he, State.loadBytes_pc ..,
    fun _ => State.loadBytes_encodeBytes_immByte h he,
    fun _ _ hn ho => State.loadBytes_encodeBytes_immWord h he hn ho,
    fun _ _ hn ho => State.loadBytes_encodeBytes_immWord h he hn ho⟩

end Sys2Proof.Machine
end

section
/-! PROOFS. The pc incrementer, operand consumption, and the ALU's overflow and layout (40_cycle.md R102, R104;
44_add_alu.md R174, R178). -/

namespace Sys2Proof.Machine

/-! ## pc and operands -/

theorem pcInc_next_toNat (pc : Word) : (pcInc pc).1.toNat = (pc.toNat + 1) % 65536 := BitVec.toNat_add pc 1#16

theorem pcInc_ovf_iff (pc : Word) : (pcInc pc).2 = true ↔ pc = 0xFFFF#16 := decide_eq_true_iff

/-- The overflow output is the carry out of bit 15. -/
theorem pcInc_ovf_eq_testBit (pc : Word) : (pcInc pc).2 = (pc.toNat + 1).testBit 16 := by
  have hlt : pc.toNat + 1 < 2 ^ (16 + 1) := by have := pc.isLt; omega
  rw [testBit_eq_decide_of_lt hlt, pcInc, decide_eq_decide]
  bv_omega

/-- Settles O21: pc + 1 needs a seventeenth bit at 0xFFFF alone. -/
theorem incrementerReportsOverflow : Obligations.IncrementerReportsOverflow := by
  unfold Obligations.IncrementerReportsOverflow
  exact fun pc => ⟨pcInc_next_toNat pc, pcInc_ovf_iff pc, pcInc_ovf_eq_testBit pc⟩

theorem State.consume16_of_order {s : State} {o : WordOrder} (ho : s.cfg.wordOrder = o) :
    s.consume16 =
      (wordOfBytes o (s.readByte (s.pc + 1#16)) (s.readByte (s.pc + 2#16)), s.setPc (s.pc + 2#16)) := by
  rw [State.consume16_eq, State.immWord_of_bytes ho rfl rfl]

/-- Settles O22: consuming is peeking and moving pc past the operand. -/
theorem operandConsumptionReadsTheFollowingBytes : Obligations.OperandConsumptionReadsTheFollowingBytes := by
  unfold Obligations.OperandConsumptionReadsTheFollowingBytes
  exact fun s => ⟨s.consume8_eq, State.consume16_of_order, State.consume16_of_order, rfl, by rw [State.consume16_eq]⟩

/-! ## V -/

theorem addOverflow_iff (l r : Byte) :
    addOverflow l r = true ↔ l.toInt + r.toInt < -128 ∨ l.toInt + r.toInt > 127 := decide_eq_true_iff

theorem addOverflow_eq_saddOverflow (l r : Byte) : addOverflow l r = BitVec.saddOverflow l r := by
  rw [Bool.eq_iff_iff, addOverflow_iff, BitVec.saddOverflow, Bool.or_eq_true, decide_eq_true_iff, decide_eq_true_iff]
  have hbound : (2 : Int) ^ (8 - 1) = 128 := rfl
  omega

/-- V from the sign bits: the operands agree and the result does not (R174). -/
theorem addOverflow_eq_sign_bits (l r : Byte) :
    addOverflow l r = (l.getLsbD 7 == r.getLsbD 7 && !(addSign l r == l.getLsbD 7)) := by
  rw [addOverflow_eq_saddOverflow, BitVec.saddOverflow_eq, BitVec.msb_eq_getLsbD_last, BitVec.msb_eq_getLsbD_last,
    BitVec.msb_eq_getLsbD_last]
  rfl

/-- Settles O25: V is Lean's signed overflow of an addition, which has both forms. -/
theorem aluOverflowIsSignedOverflow : Obligations.AluOverflowIsSignedOverflow := by
  unfold Obligations.AluOverflowIsSignedOverflow
  intro l r
  obtain ⟨-, -, -, -, -, hV, -, -⟩ := aluAdd_flags_bits l r
  rw [hV]
  refine ⟨addOverflow_iff l r, ?_⟩
  rw [addOverflow_eq_sign_bits, addSign_eq_result_bit, Bool.and_eq_true, beq_iff_eq, Bool.not_eq_true',
    beq_eq_false_iff_ne]

/-! ## Layout and commutativity -/

/-- The flags byte by the weights of its bits (R30, R178). -/
theorem packFlags_eq_ofNat (s z h v n c : Bool) :
    packFlags s z h v n c = BitVec.ofNat 8
      (128 * s.toNat + 64 * z.toNat + 16 * h.toNat + 4 * v.toNat + 2 * n.toNat + c.toNat) := by
  revert s z h v n c; decide

/-- The flags of an addition, read by name. -/
theorem aluAdd_flagOf (l r : Byte) :
    flagOf (aluAdd l r).2 .sign = addSign l r ∧ flagOf (aluAdd l r).2 .zero = addZero l r ∧
    flagOf (aluAdd l r).2 .halfCarry = addHalfCarry l r ∧ flagOf (aluAdd l r).2 .overflow = addOverflow l r ∧
    flagOf (aluAdd l r).2 .subtract = addSubtract ∧ flagOf (aluAdd l r).2 .carry = addCarry l r := by
  obtain ⟨hS, hZ, -, hH, -, hV, hN, hC⟩ := aluAdd_flags_bits l r
  exact ⟨hS, hZ, hH, hV, hN, hC⟩

theorem aluAdd_flags_eq_ofNat (l r : Byte) :
    (aluAdd l r).2 = BitVec.ofNat 8
      (128 * (flagOf (aluAdd l r).2 .sign).toNat + 64 * (flagOf (aluAdd l r).2 .zero).toNat +
       16 * (flagOf (aluAdd l r).2 .halfCarry).toNat + 4 * (flagOf (aluAdd l r).2 .overflow).toNat +
       2 * (flagOf (aluAdd l r).2 .subtract).toNat + (flagOf (aluAdd l r).2 .carry).toNat) := by
  obtain ⟨hS, hZ, hH, hV, hN, hC⟩ := aluAdd_flagOf l r
  rw [hS, hZ, hH, hV, hN, hC]
  exact packFlags_eq_ofNat ..

theorem addResult_comm (l r : Byte) : addResult l r = addResult r l := BitVec.add_comm l r

theorem addFlags_comm (l r : Byte) : addFlags l r = addFlags r l := by
  simp only [addFlags, addSign, addZero, addHalfCarry, addOverflow, addCarry, addResult_comm l r,
    Nat.add_comm l.toNat, Nat.add_comm (l &&& 0x0F#8).toNat, Int.add_comm l.toInt]

theorem aluAdd_comm (l r : Byte) : aluAdd l r = aluAdd r l :=
  Prod.ext (addResult_comm l r) (addFlags_comm l r)

/-- Settles O26: the packed byte by its weights, and each of the ALU's outputs is a function of symmetric sums. -/
theorem aluFlagsByteLayoutAndCommutativity : Obligations.AluFlagsByteLayoutAndCommutativity := by
  unfold Obligations.AluFlagsByteLayoutAndCommutativity
  exact ⟨aluAdd_flags_eq_ofNat, aluAdd_comm, fun _ => ⟨rfl, rfl, rfl, rfl, rfl, rfl⟩⟩

end Sys2Proof.Machine
end

section
/-! PROOFS. What each instruction does: result and frame (42_load8.md, 43_load16.md R152, 44_add_alu.md R179, R180;
40_cycle.md R102). -/

namespace Sys2Proof.Machine

/-! ## Where execution leaves pc -/

theorem exec_pc {i : Instr} {s t : State} (ht : exec i s = .next t) :
    t.pc = s.pc + BitVec.ofNat 16 (i.length - 1) := by
  rw [Instr.length_sub_one]
  cases i with
  | nop | ldRHl | ldRR | addAR | illegal =>
    cases ht
    exact (add_ofNat_zero _).symm
  | ldRN dst =>
    cases ht
    rfl
  | ldRrNn p =>
    rw [exec_ldRrNn] at ht
    cases ht
    rw [State.pairWrite_pc]
    rfl
  | jpNn =>
    rw [exec_jpNn] at ht
    cases ht
    rfl

/-- Settles O23: execution always answers, with pc moved past the operand bytes. -/
theorem executionLeavesPcAtTheLastByteConsumed : Obligations.ExecutionLeavesPcAtTheLastByteConsumed := by
  unfold Obligations.ExecutionLeavesPcAtTheLastByteConsumed
  intro i s
  obtain ⟨t, ht, -⟩ := exec_answers_next i s
  exact ⟨t, ht, exec_pc ht⟩

/-! ## The 8-bit loads -/

/-- The HL address written out from registers and memory (R130, R25). -/
theorem State.hlAddress_written_out (s : State) :
    (match s.cfg.hlAddressMode, s.cfg.wordOrder with
      | .direct, _ => s.hlConcat
      | .pairRead, .little => joinBytes (s.readByte (s.hlConcat + 1#16)) (s.readByte s.hlConcat)
      | .pairRead, .big => joinBytes (s.readByte s.hlConcat) (s.readByte (s.hlConcat + 1#16))) = s.hlAddress := by
  rw [State.hlAddress_eq]
  cases s.cfg.hlAddressMode <;> cases s.cfg.wordOrder <;> rfl

/-- Settles O28: the load is a register write of the byte at the HL address. -/
theorem ldRegHlLoadsTheByteAtTheHlAddress : Obligations.LdRegHlLoadsTheByteAtTheHlAddress := by
  unfold Obligations.LdRegHlLoadsTheByteAtTheHlAddress
  intro s dst hl addr
  have haddr : addr = s.hlAddress := s.hlAddress_written_out
  refine ⟨_, exec_ldRHl dst s, ?_, s.writeReg_frame dst _⟩
  rw [State.writeReg_readReg_same, haddr]

/-- Settles O29: the load is a register write, and writing back what a register holds changes nothing. -/
theorem ldRegRegCopiesTheSource : Obligations.LdRegRegCopiesTheSource := by
  unfold Obligations.LdRegRegCopiesTheSource
  intro s dst src
  refine ⟨⟨_, exec_ldRR dst src s, s.writeReg_readReg_same dst _, s.writeReg_frame dst _⟩, ?_⟩
  rintro rfl
  rw [exec_ldRR, State.writeReg_self]

/-- Settles O30: the load is a register write after pc has moved to the immediate byte. -/
theorem ldRegImmLoadsTheImmediateByte : Obligations.LdRegImmLoadsTheImmediateByte := by
  unfold Obligations.LdRegImmLoadsTheImmediateByte
  intro s dst
  obtain ⟨hregs, hmem, hfixed, hctl, hpc, hsp⟩ := (s.setPc (s.pc + 1#16)).writeReg_frame dst s.immByte
  exact ⟨_, exec_ldRN dst s, State.writeReg_readReg_same .., hregs, hmem, hfixed, hctl, hpc, hsp⟩

/-- A write of F stores the byte and leaves A. -/
theorem State.writeReg_f_readReg (s : State) (v : Byte) :
    (s.writeReg .f v).readReg .f = v ∧ (s.writeReg .f v).readReg .a = s.readReg .a :=
  ⟨s.writeReg_readReg_same .f v, s.writeReg_readReg_other v (by decide)⟩

/-- Settles O31: each of the three loads is a write of the whole register F. -/
theorem loadsIntoFStoreAllEightBits : Obligations.LoadsIntoFStoreAllEightBits := by
  unfold Obligations.LoadsIntoFStoreAllEightBits
  refine ⟨decode_encode (i := .ldRHl .f) rfl, decode_encode (i := .ldRN .f) rfl,
    fun _ hy => decode_ldRR_layout 0b110#3 hy, ?_, ?_, ?_⟩
  · rintro s _ rfl
    exact ⟨_, exec_ldRHl .f s, s.writeReg_f_readReg _⟩
  · intro s src
    exact ⟨_, exec_ldRR .f src s, s.writeReg_f_readReg _⟩
  · rintro s _ rfl
    exact ⟨_, exec_ldRN .f s, (s.setPc (s.pc + 1#16)).writeReg_f_readReg _⟩

/-! ## LD HL,nn -/

/-- The byte of nn that is stored at the lower address is the one read at the lower address. -/
theorem State.lowAddrByte_immWord (s : State) :
    lowAddrByte s.cfg.wordOrder s.immWord = s.readByte (s.pc + 1#16) := lowAddrByte_wordOfBytes ..

/-- The byte of nn that is stored at the higher address is the one read at the higher address. -/
theorem State.highAddrByte_immWord (s : State) :
    highAddrByte s.cfg.wordOrder s.immWord = s.readByte (s.pc + 2#16) := highAddrByte_wordOfBytes ..

/-- Settles O33: the instruction is the write of pair HL after the operand is consumed, and the two bytes of nn go back
in the order in which they were read. -/
theorem ldHlStoresTheImmediateWordAtHl : Obligations.LdHlStoresTheImmediateWordAtHl := by
  unfold Obligations.LdHlStoresTheImmediateWordAtHl
  intro s h hl
  have hwf : (s.setPc (s.pc + 2#16)).mem.wf = true := h
  refine ⟨_, exec_ldRrNn .hl s, ?_, ?_, State.pairWrite_hl_pairRead hwf _, fun _ _ => rfl,
    State.writeWord_sameMemExcept hwf _ _, State.pairWrite_sameFixed _ .hl _, State.pairWrite_sameControl _ .hl _, rfl,
    rfl, State.pairWrite_wf hwf .hl _⟩
  · exact (State.writeWord_readByte_self hwf _ _).trans s.lowAddrByte_immWord
  · exact (State.writeWord_readByte_succ hwf _ _).trans s.highAddrByte_immWord

/-! ## ADD A,r -/

/-- ADD A,r writes the ALU's two outputs to A and F, and touches nothing else (R179). -/
theorem exec_addAR_outputs (s : State) (src : Reg) :
    ∃ t, exec (.addAR src) s = .next t ∧ t.readReg .a = (aluAdd (s.readReg .a) (s.readReg src)).1 ∧
      t.readReg .f = (aluAdd (s.readReg .a) (s.readReg src)).2 ∧
      State.sameRegsExcept [.a, .f] s t ∧ State.sameMemExcept [] s t ∧ State.sameFixed s t ∧
      State.sameControl s t ∧ t.pc = s.pc ∧ t.sp = s.sp :=
  ⟨_, exec_addAR src s, rfl, rfl, s.writeReg_writeReg_sameRegsExcept .a .f _ _, fun _ _ => rfl, ⟨rfl, rfl, rfl, rfl⟩,
    ⟨rfl, rfl⟩, rfl, rfl⟩

/-- Settles O36: the two outputs of the ALU, whose N flag and unused bits are 0. -/
theorem addWritesResultToAAndFlagsToF : Obligations.AddWritesResultToAAndFlagsToF := by
  unfold Obligations.AddWritesResultToAAndFlagsToF
  intro s src
  obtain ⟨t, ht, ha, hf, hframe⟩ := exec_addAR_outputs s src
  obtain ⟨-, -, h5, -, h3, -, hN, -⟩ := aluAdd_flags_bits (s.readReg .a) (s.readReg src)
  rw [← hf] at h5 h3 hN
  exact ⟨t, ht, ha, hf, ha, hN, h5, h3, hframe⟩

/-! ## ADD A,A -/

/-- Doubling moves every bit up by one. -/
theorem testBit_add_self (n i : Nat) : (n + n).testBit (i + 1) = n.testBit i := by
  rw [Nat.testBit_succ]
  congr 1
  omega

theorem addCarry_self (x : Byte) : addCarry x x = x.getLsbD 7 := by
  rw [addCarry_eq_testBit, testBit_add_self, BitVec.testBit_toNat]

theorem addHalfCarry_self (x : Byte) : addHalfCarry x x = x.getLsbD 3 := by
  rw [addHalfCarry_eq_testBit, testBit_add_self, ← BitVec.testBit_toNat]
  exact Nat.testBit_mod_two_pow x.toNat 4 3

theorem addSign_self (x : Byte) : addSign x x = x.getLsbD 6 := by
  rw [addSign_eq_result_bit, ← BitVec.testBit_toNat, aluAdd_result_toNat, ← BitVec.testBit_toNat x,
    ← testBit_add_self x.toNat 6]
  exact Nat.testBit_mod_two_pow _ 8 7

theorem addOverflow_self (x : Byte) : addOverflow x x = (x.getLsbD 7 ^^ x.getLsbD 6) := by
  rw [addOverflow_eq_sign_bits, addSign_self]
  cases x.getLsbD 7 <;> cases x.getLsbD 6 <;> rfl

theorem toNat_and_low7 (x : Byte) : (x &&& 0x7F#8).toNat = x.toNat % 128 := by
  rw [BitVec.toNat_and]
  exact Nat.and_two_pow_sub_one_eq_mod x.toNat 7

theorem addZero_self_iff (x : Byte) : addZero x x = true ↔ x &&& 0x7F#8 = 0x00#8 := by
  rw [addZero_iff, ← BitVec.toNat_inj, ← BitVec.toNat_inj, aluAdd_result_toNat, toNat_and_low7, BitVec.toNat_ofNat]
  omega

/-- Settles O37: doubling shifts the old A up by one bit, which shows in every flag. -/
theorem addAToItselfDoublesA : Obligations.AddAToItselfDoublesA := by
  unfold Obligations.AddAToItselfDoublesA
  intro s
  obtain ⟨t, ht, ha, hf, -⟩ := exec_addAR_outputs s .a
  obtain ⟨hS, hZ, hH, hV, -, hC⟩ := aluAdd_flagOf (s.readReg .a) (s.readReg .a)
  rw [← hf] at hS hZ hH hV hC
  refine ⟨t, ht, ?_, hC.trans (addCarry_self _), hH.trans (addHalfCarry_self _), hV.trans (addOverflow_self _),
    hS.trans (addSign_self _), ?_⟩
  · rw [ha, aluAdd_result_toNat, Nat.two_mul]
  · rw [State.flag, hZ]
    exact addZero_self_iff _

end Sys2Proof.Machine
end

section
/-! PROOFS. The step: what it does per form, how it ends, and the run invariant (40_cycle.md R100 to R106;
60_exceptions.md R230, R231; 10_state.md R31). -/

namespace Sys2Proof.Machine

theorem State.fetchInstr_eq_decode (s : State) : s.fetchInstr = decode (s.readByte s.pc) := rfl

theorem step_answers_next {s : State} (hr : s.status = .running) : ∃ t, step s = .next t := by
  obtain ⟨u, hu, -⟩ := exec_answers_next s.fetchInstr s
  exact ⟨_, step_of_exec hr hu⟩

/-! ## Steps by what the instruction leaves -/

/-- Settles O40: the four ends of a step are those of `State.advance`. -/
theorem stepRunsTheDecodedInstruction : Obligations.StepRunsTheDecodedInstruction := by
  unfold Obligations.StepRunsTheDecodedInstruction
  intro s t hr ht
  rw [step_of_exec hr ht]
  exact ⟨fun _ _ hf => congrArg _ (State.advance_faulted hf), fun _ hrt hj => congrArg _ (State.advance_jump hrt hj),
    fun hrt hj hp => congrArg _ (State.advance_next hrt hj hp),
    fun hrt hj hp => congrArg _ (State.advance_end hrt hj hp)⟩

theorem step_of_terminated {s : State} (h : s.status = .terminated) : step s = .fault .runTerminated := by
  rw [step, h]

theorem step_of_faulted {s : State} {op : Byte} {a : Word} (h : s.status = .faulted op a) :
    step s = .fault (.runFaulted op a) := by
  rw [step, h]

/-- Settles O41: `step` looks at the status first. -/
theorem endedRunHasNoStep : Obligations.EndedRunHasNoStep := by
  unfold Obligations.EndedRunHasNoStep
  exact ⟨fun _ => step_of_terminated, fun _ _ _ => step_of_faulted, fun _ _ h => (step_eq_next h).1⟩

theorem step_of_fetchInstr_illegal {s : State} {op : Byte} (hr : s.status = .running)
    (hi : s.fetchInstr = .illegal op) :
    step s = .next (s.setStatus (.faulted op s.pc)) := by
  have hexec : exec s.fetchInstr s = .next (s.setStatus (.faulted op s.pc)) := by rw [hi, exec_illegal]
  rw [step_of_exec hr hexec, State.advance_faulted (State.setStatus_status ..)]

theorem step_of_fetchInstr_jpNn {s : State} (hr : s.status = .running) (hj : s.jump = none)
    (hi : s.fetchInstr = .jpNn) : step s = .next (s.setPc s.immWord) := by
  have hexec : exec s.fetchInstr s = .next ((s.setPc (s.pc + 2#16)).setJump (some s.immWord)) := by
    rw [hi, exec_jpNn]
  have hrun : ((s.setPc (s.pc + 2#16)).setJump (some s.immWord)).status = .running := hr
  rw [step_of_exec hr hexec, State.advance_jump hrun rfl]
  exact congrArg _ (State.eq_of_fields rfl rfl rfl rfl rfl rfl rfl hj.symm rfl rfl)

/-- Settles O38: the redirect JP leaves is moved into pc by the end of its step, with no overflow check. -/
theorem jpRedirectsToTheImmediateWord : Obligations.JpRedirectsToTheImmediateWord := by
  unfold Obligations.JpRedirectsToTheImmediateWord
  refine ⟨fun s => ⟨_, exec_jpNn s, rfl, rfl, fun _ _ => rfl, fun _ _ => rfl, ⟨rfl, rfl, rfl, rfl⟩, rfl⟩, ?_⟩
  intro s hr hj hi
  exact step_of_fetchInstr_jpNn hr hj hi

/-- Settles O39: the exception writes the status alone, and the end of a faulted step moves nothing. -/
theorem illegalOpcodeFaultsAndChangesNothingElse : Obligations.IllegalOpcodeFaultsAndChangesNothingElse := by
  unfold Obligations.IllegalOpcodeFaultsAndChangesNothingElse
  refine ⟨fun s op => ⟨_, exec_illegal op s, rfl, rfl, rfl, rfl, fun _ _ => rfl, fun _ _ => rfl, ⟨rfl, rfl, rfl, rfl⟩⟩,
    ?_⟩
  intro s op hr hi
  exact step_of_fetchInstr_illegal hr hi

/-! ## What a step does to the status -/

theorem State.advance_status_of_running {s : State} (h : s.status = .running) :
    s.advance.status = .running ∨ s.advance.status = .terminated := by
  rcases s.advance_cases with ha | ⟨a, ha⟩ | ⟨a, ha⟩ | ha <;> rw [ha]
  · exact .inl h
  · exact .inl h
  · exact .inl h
  · exact .inr rfl

/-- A step keeps the run going, terminates it, or faults on the illegal opcode at pc. -/
theorem step_status {s t : State} (h : step s = .next t) :
    ((t.status = .running ∨ t.status = .terminated) ∧ s.fetchInstr.kind ≠ .ILLEGAL) ∨
      ∃ op, s.fetchInstr = .illegal op ∧ t = s.setStatus (.faulted op s.pc) := by
  obtain ⟨hr, u, hu, rfl⟩ := step_eq_next h
  obtain ⟨hur, hk⟩ | ⟨op, hi, rfl⟩ := exec_status hr hu
  · exact .inl ⟨State.advance_status_of_running hur, hk⟩
  · exact .inr ⟨op, hi, State.advance_faulted rfl⟩

/-- Settles O42: executing always answers, and so does the end of a step. -/
theorem runningStateAlwaysSteps : Obligations.RunningStateAlwaysSteps := by
  unfold Obligations.RunningStateAlwaysSteps
  intro s hr
  obtain ⟨t, ht⟩ := step_answers_next hr
  refine ⟨t, ht, ?_⟩
  obtain ⟨hrun | hterm, -⟩ | ⟨op, -, rfl⟩ := step_status ht
  · exact .inl hrun
  · exact .inr (.inl hterm)
  · exact .inr (.inr ⟨op, rfl⟩)

theorem step_faults_iff {s t : State} (h : step s = .next t) (op : Byte) (a : Word) :
    t.status = .faulted op a ↔ s.fetchInstr = .illegal op ∧ a = s.pc := by
  obtain ⟨hst, hk⟩ | ⟨x, hx, rfl⟩ := step_status h
  · constructor
    · intro hf
      rw [hf] at hst
      obtain hst | hst := hst <;> cases hst
    · rintro ⟨hi, -⟩
      rw [hi] at hk
      exact absurd rfl hk
  · rw [State.setStatus_status, hx, Status.faulted.injEq, Instr.illegal.injEq, eq_comm (a := s.pc)]

/-- Settles O45: a step faults exactly where the byte at pc decodes as illegal, and R78 lists those bytes. -/
theorem runFaultsOnlyOnAnIllegalOpcode : Obligations.RunFaultsOnlyOnAnIllegalOpcode := by
  unfold Obligations.RunFaultsOnlyOnAnIllegalOpcode
  intro s t op a h
  rw [step_faults_iff h, State.fetchInstr_eq_decode, decode_eq_illegal_iff, and_assoc]

/-! ## The one inversion of a step with no redirect pending -/

/-- Everything a step from a state with no redirect pending can do: fault on an illegal opcode, go where JP says, or
execute any other instruction and then increment pc or end the run at 0xFFFF (R100, R103, R105). -/
theorem step_cases {s t : State} (hj : s.jump = none) (h : step s = .next t) :
    (∃ op, s.fetchInstr = .illegal op ∧ t = s.setStatus (.faulted op s.pc)) ∨
    (s.fetchInstr = .jpNn ∧ s.status = .running ∧ t = s.setPc s.immWord) ∨
    (s.fetchInstr ≠ .jpNn ∧ s.fetchInstr.kind ≠ .ILLEGAL ∧
      ∃ u, exec s.fetchInstr s = .next u ∧ u.status = .running ∧ u.jump = none ∧
        u.pc = s.pc + BitVec.ofNat 16 (s.fetchInstr.length - 1) ∧
        ((u.pc ≠ 0xFFFF#16 ∧ t = u.setPc (u.pc + 1#16)) ∨ (u.pc = 0xFFFF#16 ∧ t = u.setStatus .terminated))) := by
  obtain ⟨hr, u, hu, rfl⟩ := step_eq_next h
  by_cases hjp : s.fetchInstr = .jpNn
  · rw [step_of_fetchInstr_jpNn hr hj hjp] at h
    exact .inr (.inl ⟨hjp, hr, (Host.Outcome.next.inj h).symm⟩)
  obtain ⟨hur, hk⟩ | ⟨op, hi, rfl⟩ := exec_status hr hu
  · have huj : u.jump = none := (exec_jump hjp hu).trans hj
    refine .inr (.inr ⟨hjp, hk, u, hu, hur, huj, exec_pc hu, ?_⟩)
    by_cases hp : u.pc = 0xFFFF#16
    · exact .inr ⟨hp, State.advance_end hur huj hp⟩
    · exact .inl ⟨hp, State.advance_next hur huj hp⟩
  · exact .inl ⟨op, hi, State.advance_faulted rfl⟩

/-! ## The next fetch address -/

/-- The address after the last byte of an instruction. -/
theorem last_byte_succ (a : Word) (i : Instr) :
    a + BitVec.ofNat 16 (i.length - 1) + 1#16 = a + BitVec.ofNat 16 i.length := by
  rw [Instr.length_sub_one, Instr.length, BitVec.add_assoc, BitVec.ofNat_add]

/-- The step of an instruction that neither jumps nor faults, by where its last byte stands. -/
theorem step_of_straight {s : State} (hr : s.status = .running) (hj : s.jump = none) (hjp : s.fetchInstr ≠ .jpNn)
    (hk : s.fetchInstr.kind ≠ .ILLEGAL) :
    (s.pc + BitVec.ofNat 16 (s.fetchInstr.length - 1) ≠ 0xFFFF#16 →
      ∃ t, step s = .next t ∧ t.pc = s.pc + BitVec.ofNat 16 s.fetchInstr.length ∧ t.status = .running) ∧
    (s.pc + BitVec.ofNat 16 (s.fetchInstr.length - 1) = 0xFFFF#16 →
      ∃ t, step s = .next t ∧ t.pc = 0xFFFF#16 ∧ t.status = .terminated) := by
  obtain ⟨t, ht⟩ := step_answers_next hr
  obtain ⟨op, hi, -⟩ | ⟨hi, -⟩ | ⟨-, -, u, -, hur, -, hpc, hend⟩ := step_cases hj ht
  · rw [hi] at hk
    exact absurd rfl hk
  · exact absurd hi hjp
  · rw [← hpc]
    obtain ⟨hp, rfl⟩ | ⟨hp, rfl⟩ := hend
    · exact ⟨fun _ => ⟨_, ht, by rw [State.setPc_pc, hpc, last_byte_succ], hur⟩, fun hp' => absurd hp' hp⟩
    · exact ⟨fun hp' => absurd hp hp', fun _ => ⟨_, ht, hp, rfl⟩⟩

/-- Settles O43: the three ways a step with no redirect pending can end. -/
theorem nextFetchAddressPerForm : Obligations.NextFetchAddressPerForm := by
  unfold Obligations.NextFetchAddressPerForm
  intro s hr hj
  refine ⟨?_, ?_, ?_⟩
  · rintro _ rfl hjp hk
    exact step_of_straight hr hj hjp hk
  · intro hi
    exact ⟨_, step_of_fetchInstr_jpNn hr hj hi, rfl, hr⟩
  · intro op hi
    exact ⟨_, step_of_fetchInstr_illegal hr hi, rfl, rfl⟩

/-- Settles O44: of the ways a step can end only the increment at 0xFFFF terminates. -/
theorem runTerminatesOnlyByPcOverflow : Obligations.RunTerminatesOnlyByPcOverflow := by
  unfold Obligations.RunTerminatesOnlyByPcOverflow
  intro s t hj h
  obtain ⟨op, hi, rfl⟩ | ⟨hi, hr, rfl⟩ | ⟨hjp, hk, u, -, hur, -, hpc, ⟨hp, rfl⟩ | ⟨hp, rfl⟩⟩ := step_cases hj h
  · simp [hi, Instr.kind]
  · simp [hi, hr]
  · simp [hur, ← hpc, hp]
  · simp [hjp, hk, ← hpc, hp]

/-! ## The run invariant -/

theorem step_keeps_wf {s t : State} (hwf : s.mem.wf = true) (h : step s = .next t) : t.mem.wf = true := by
  obtain ⟨-, u, hu, rfl⟩ := step_eq_next h
  rw [State.advance_mem]
  exact exec_keeps_wf hwf hu

/-- A state that faults on the illegal opcode at pc meets the run invariant. -/
theorem State.inv_of_faulted {s : State} {op : Byte} (hwf : s.mem.wf = true) (hj : s.jump = none)
    (hi : s.fetchInstr = .illegal op) : (s.setStatus (.faulted op s.pc)).Inv := by
  refine ⟨hwf, hj, ?_, ?_⟩
  · intro hst
    cases hst
  · intro op' a hst
    cases hst
    exact ⟨rfl, hi⟩

theorem State.inv_of_terminated {s : State} (hwf : s.mem.wf = true) (hj : s.jump = none) (hp : s.pc = 0xFFFF#16) :
    (s.setStatus .terminated).Inv := by
  refine ⟨hwf, hj, fun _ => hp, ?_⟩
  intro op a hst
  cases hst

theorem step_keeps_inv {s t : State} (hinv : s.Inv) (h : step s = .next t) : t.Inv := by
  obtain ⟨hwf, hj, -, -⟩ := hinv
  have hwf' := step_keeps_wf hwf h
  obtain ⟨op, hi, rfl⟩ | ⟨-, hr, rfl⟩ | ⟨-, -, u, -, hur, huj, -, ⟨-, rfl⟩ | ⟨hp, rfl⟩⟩ := step_cases hj h
  · exact State.inv_of_faulted hwf hj hi
  · exact State.inv_of_running hwf' hj hr
  · exact State.inv_of_running hwf' huj hur
  · exact State.inv_of_terminated hwf' huj hp

/-- Settles O3: by the ways a step with no redirect pending can end; memory stays canonical in all of them. -/
theorem everyStepKeepsTheRunInvariant : Obligations.EveryStepKeepsTheRunInvariant := by
  unfold Obligations.EveryStepKeepsTheRunInvariant
  exact fun _ _ => step_keeps_inv

end Sys2Proof.Machine
end

section
/-! PROOFS. What a step changes: the registers its instruction names, and the memory word of LD HL,nn (10_state.md R22,
R32; 20_memory.md R52, R62). -/

namespace Sys2Proof.Machine

/-! ## Registers -/

theorem exec_sameRegsExcept {i : Instr} {s t : State} (ht : exec i s = .next t) :
    State.sameRegsExcept (destinations i) s t := by
  cases i with
  | nop | illegal =>
    cases ht
    exact fun _ _ => rfl
  | jpNn =>
    rw [exec_jpNn] at ht
    cases ht
    exact fun _ _ => rfl
  | ldRHl dst | ldRR dst src =>
    cases ht
    exact s.writeReg_sameRegsExcept dst _
  | ldRN dst =>
    cases ht
    exact (s.setPc (s.pc + 1#16)).writeReg_sameRegsExcept dst _
  | addAR src =>
    cases ht
    exact s.writeReg_writeReg_sameRegsExcept .a .f _ _
  | ldRrNn p =>
    rw [exec_ldRrNn] at ht
    cases ht
    cases p with
    | bc => exact (s.setPc (s.pc + 2#16)).writeReg_writeReg_sameRegsExcept .b .c _ _
    | de => exact (s.setPc (s.pc + 2#16)).writeReg_writeReg_sameRegsExcept .d .e _ _
    | hl | sp => exact fun _ _ => rfl

/-- The instructions that name F as a destination (R32). -/
theorem f_mem_destinations {i : Instr} (h : Reg.f ∈ destinations i) :
    (∃ src, i = .addAR src) ∨ i = .ldRHl .f ∨ (∃ src, i = .ldRR .f src) ∨ i = .ldRN .f := by
  cases i with
  | nop | jpNn | illegal => cases h
  | ldRHl dst => exact .inr (.inl (by rw [List.mem_singleton.1 h]))
  | ldRR dst src => exact .inr (.inr (.inl ⟨src, by rw [List.mem_singleton.1 h]⟩))
  | ldRN dst => exact .inr (.inr (.inr (by rw [List.mem_singleton.1 h])))
  | ldRrNn p => cases p <;> simp [destinations] at h
  | addAR src => exact .inl ⟨src, rfl⟩

theorem step_sameRegsExcept {s t : State} (h : step s = .next t) :
    State.sameRegsExcept (destinations s.fetchInstr) s t := by
  obtain ⟨-, u, hu, rfl⟩ := step_eq_next h
  intro q hq
  rw [State.advance_readReg, exec_sameRegsExcept hu q hq]

/-- Settles O46: executing writes the destinations alone, and the end of a step writes no register. -/
theorem stepChangesOnlyDestinationRegisters : Obligations.StepChangesOnlyDestinationRegisters := by
  unfold Obligations.StepChangesOnlyDestinationRegisters
  intro s t q h hne
  have hq : q ∈ destinations s.fetchInstr := by
    by_contra hq
    exact hne (step_sameRegsExcept h q hq)
  refine ⟨hq, ?_⟩
  rintro rfl
  exact f_mem_destinations hq

/-! ## Memory -/

theorem exec_mem {i : Instr} {s t : State} (hi : i ≠ .ldRrNn .hl) (ht : exec i s = .next t) : t.mem = s.mem := by
  cases i with
  | nop | ldRHl | ldRR | ldRN | addAR | illegal =>
    cases ht
    rfl
  | jpNn =>
    rw [exec_jpNn] at ht
    cases ht
    rfl
  | ldRrNn p =>
    rw [exec_ldRrNn] at ht
    cases ht
    exact State.pairWrite_mem (fun hp => hi (by rw [hp])) _ _

/-- The memory LD HL,nn leaves is that of the word write at {H, L}. -/
theorem step_of_fetchInstr_ldHl {s t : State} (hi : s.fetchInstr = .ldRrNn .hl) (h : step s = .next t) :
    t.mem = (s.writeWord s.hlConcat s.immWord).mem := by
  obtain ⟨-, u, hu, rfl⟩ := step_eq_next h
  rw [hi, exec_ldRrNn] at hu
  cases hu
  rw [State.advance_mem]
  rfl

/-- Settles O47: any other instruction leaves memory, and LD HL,nn is a word write at {H, L}. -/
theorem onlyLdHlWritesMemory : Obligations.OnlyLdHlWritesMemory := by
  unfold Obligations.OnlyLdHlWritesMemory
  intro s t a hwf h hne
  have hi : s.fetchInstr = .ldRrNn .hl := by
    by_contra hi
    obtain ⟨-, u, hu, rfl⟩ := step_eq_next h
    rw [State.advance_readByte, State.readByte, exec_mem hi hu] at hne
    exact hne rfl
  refine ⟨hi, ?_⟩
  by_contra ha
  have hframe := State.writeWord_sameMemExcept hwf s.hlConcat s.immWord a (by simpa [State.hlConcat_eq_append] using ha)
  rw [State.readByte, step_of_fetchInstr_ldHl hi h] at hne
  exact hne hframe

/-- Settles O34: the bytes stored at {H, L} and after it are the two operand bytes in their order. -/
theorem bytesStoredByLdHlAreFetchedNext : Obligations.BytesStoredByLdHlAreFetchedNext := by
  unfold Obligations.BytesStoredByLdHlAreFetchedNext
  intro s hwf hr _ hi hl
  obtain ⟨t, ht⟩ := step_answers_next hr
  have hread : ∀ a, t.readByte a = (s.writeWord s.hlConcat s.immWord).readByte a := fun a => by
    rw [State.readByte, step_of_fetchInstr_ldHl hi ht, State.readByte]
  refine ⟨t, ht, congrArg decode ?_, congrArg decode ?_⟩
  · exact (hread hl).trans ((State.writeWord_readByte_self hwf _ _).trans s.lowAddrByte_immWord)
  · exact (hread (hl + 1#16)).trans ((State.writeWord_readByte_succ hwf _ _).trans s.highAddrByte_immWord)

end Sys2Proof.Machine
end

section
/-! PROOFS. What a step does not depend on: ix, iy and r; the flags; the bytes its form does not read (10_state.md R28,
R32; 20_memory.md R52, R56). -/

namespace Sys2Proof.Machine

/-! ## ix, iy and r -/

theorem State.withUnused_pairWrite (s : State) (ix iy : Word) (r : Byte) (p : RegPair) (v : Word) :
    (s.withUnused ix iy r).pairWrite p v = (s.pairWrite p v).withUnused ix iy r := by
  cases p <;> rfl

theorem exec_withUnused (i : Instr) (s : State) (ix iy : Word) (r : Byte) :
    exec i (s.withUnused ix iy r) = mapNext (fun t => t.withUnused ix iy r) (exec i s) := by
  cases i with
  | ldRrNn p =>
    rw [exec_ldRrNn, exec_ldRrNn, mapNext, ← State.withUnused_pairWrite]
    rfl
  | nop | ldRHl | ldRR | ldRN | addAR | jpNn | illegal => rfl

/-- Settles O48: executing and the end of a step both commute with a change of the three registers. -/
theorem unusedRegistersAreNeitherReadNorWritten : Obligations.UnusedRegistersAreNeitherReadNorWritten := by
  unfold Obligations.UnusedRegistersAreNeitherReadNorWritten
  intro s ix iy r
  exact step_commutes (fun t => t.withUnused ix iy r) (fun _ => rfl) (fun _ => rfl) (fun _ => rfl) (fun _ _ => rfl)
    (fun _ _ => rfl) (fun _ _ => rfl) s rfl fun u hu => by rw [exec_withUnused, hu, mapNext]

/-! ## The flags -/

theorem RegFile.set_set_same (rf : RegFile) (q : Reg) (x y : Byte) : (rf.set q x).set q y = rf.set q y := by
  cases q <;> rfl

theorem RegFile.set_comm {p q : Reg} (h : p ≠ q) (rf : RegFile) (x y : Byte) :
    (rf.set p x).set q y = (rf.set q y).set p x := by
  refine RegFile.eq_of_get fun r => ?_
  rw [RegFile.get_set, RegFile.get_set, RegFile.get_set, RegFile.get_set]
  by_cases hq : r = q
  · rw [if_pos hq, if_neg (fun hp => h (hp.symm.trans hq)), if_pos hq]
  · rw [if_neg hq, if_neg hq]

theorem State.writeReg_writeReg_same (s : State) (q : Reg) (x y : Byte) :
    (s.writeReg q x).writeReg q y = s.writeReg q y :=
  congrArg (fun rf => { s with regs := rf }) (s.regs.set_set_same q x y)

theorem State.writeReg_comm {p q : Reg} (h : p ≠ q) (s : State) (x y : Byte) :
    (s.writeReg p x).writeReg q y = (s.writeReg q y).writeReg p x :=
  congrArg (fun rf => { s with regs := rf }) (RegFile.set_comm h s.regs x y)

/-- The instruction takes F as data: ADD A,F, and the term LD r,F that no opcode gives (R32, R72; log 23). -/
def readsF (i : Instr) : Prop := i = .addAR .f ∨ ∃ dst, i = .ldRR dst .f

theorem fetchInstr_not_readsF {s : State} (h : s.fetchInstr ≠ .addAR .f) : ¬ readsF s.fetchInstr := by
  rintro (hi | ⟨dst, hi⟩)
  · exact h hi
  · exact decode_ne_ldRR_f _ dst hi

theorem source_ne_f_of_ldRR {dst src : Reg} (h : ¬ readsF (.ldRR dst src)) : src ≠ .f := by
  rintro rfl
  exact h (.inr ⟨dst, rfl⟩)

theorem source_ne_f_of_addAR {src : Reg} (h : ¬ readsF (.addAR src)) : src ≠ .f := by
  rintro rfl
  exact h (.inl rfl)

section
variable {i : Instr} (hread : ¬ readsF i)
include hread

/-- An instruction that writes F without reading it does the same whatever F was. -/
theorem exec_writeReg_f_of_mem (hf : .f ∈ destinations i) (s : State) (v : Byte) :
    exec i (s.writeReg .f v) = exec i s := by
  obtain ⟨src, rfl⟩ | rfl | ⟨src, rfl⟩ | rfl := f_mem_destinations hf
  · have hsrc := s.writeReg_readReg_other v (source_ne_f_of_addAR hread)
    have ha := s.writeReg_readReg_other (p := .a) (q := .f) v (by decide)
    rw [exec_addAR, exec_addAR, hsrc, ha, State.writeReg_comm (p := .f) (q := .a) (by decide),
      State.writeReg_writeReg_same]
  · exact congrArg Host.Outcome.next (s.writeReg_writeReg_same .f v _)
  · rw [exec_ldRR, exec_ldRR, s.writeReg_readReg_other v (source_ne_f_of_ldRR hread), State.writeReg_writeReg_same]
  · exact congrArg Host.Outcome.next ((s.setPc (s.pc + 1#16)).writeReg_writeReg_same .f v _)

/-- An instruction that neither writes nor reads F does the same whatever F is, and carries F along. -/
theorem exec_writeReg_f_of_not_mem (hf : .f ∉ destinations i) (s : State) (v : Byte) :
    exec i (s.writeReg .f v) = mapNext (fun t => t.writeReg .f v) (exec i s) := by
  cases i with
  | nop | jpNn | illegal => rfl
  | ldRHl dst =>
    have hdst : Reg.f ≠ dst := by simpa [destinations] using hf
    exact congrArg Host.Outcome.next (s.writeReg_comm hdst v _)
  | ldRR dst src =>
    have hdst : Reg.f ≠ dst := by simpa [destinations] using hf
    rw [exec_ldRR, exec_ldRR, s.writeReg_readReg_other v (source_ne_f_of_ldRR hread), State.writeReg_comm hdst, mapNext]
  | ldRN dst =>
    have hdst : Reg.f ≠ dst := by simpa [destinations] using hf
    exact congrArg Host.Outcome.next ((s.setPc (s.pc + 1#16)).writeReg_comm hdst v _)
  | ldRrNn p =>
    rw [exec_ldRrNn, exec_ldRrNn, mapNext]
    cases p <;> rfl
  | addAR src => simp [destinations] at hf

end

/-- Settles O49: by whether the instruction at pc writes F; where it does not, its step carries F along. -/
theorem flagsAreNeverTested : Obligations.FlagsAreNeverTested := by
  unfold Obligations.FlagsAreNeverTested
  intro s t v hadd ht
  have hread := fetchInstr_not_readsF hadd
  by_cases hf : .f ∈ destinations s.fetchInstr
  · have hstep : step (s.writeReg .f v) = step s :=
      step_congr (s.writeReg_status .f v) (exec_writeReg_f_of_mem hread hf s v)
    exact ⟨t.readReg .f, by rw [hstep, ht, State.writeReg_self], .inr rfl⟩
  · have hexec : ∀ u, exec s.fetchInstr s = .next u → exec s.fetchInstr (s.writeReg .f v) = .next (u.writeReg .f v) :=
      fun u hu => by rw [exec_writeReg_f_of_not_mem hread hf, hu, mapNext]
    have hstep := step_commutes (fun t => t.writeReg .f v) (fun _ => rfl) (fun _ => rfl) (fun _ => rfl) (fun _ _ => rfl)
      (fun _ _ => rfl) (fun _ _ => rfl) s rfl hexec
    rw [ht, mapNext] at hstep
    exact ⟨v, hstep, .inl ⟨rfl, step_sameRegsExcept ht .f hf⟩⟩

/-! ## The bytes a step reads -/

theorem State.pc_mem_readSet (s : State) : s.pc ∈ s.readSet := by
  unfold State.readSet
  split
  case h_2 => split <;> exact List.mem_cons_self
  all_goals exact List.mem_cons_self

section
variable {s : State} {m : Memory} (hm : ∀ a ∈ s.readSet, m.read a = s.readByte a)
include hm

/-- The two memories agree on the byte at pc, so the same instruction is fetched from both. -/
theorem State.withMem_fetchInstr : (s.withMem m).fetchInstr = s.fetchInstr :=
  congrArg decode (hm s.pc s.pc_mem_readSet)

theorem State.withMem_immByte {dst : Reg} (hi : s.fetchInstr = .ldRN dst) : (s.withMem m).immByte = s.immByte :=
  hm _ (by simp [State.readSet, hi])

theorem State.withMem_immWord (hi : (∃ p, s.fetchInstr = .ldRrNn p) ∨ s.fetchInstr = .jpNn) :
    (s.withMem m).immWord = s.immWord := by
  have hset : s.readSet = [s.pc, s.pc + 1#16, s.pc + 2#16] := by
    obtain ⟨p, hi⟩ | hi := hi <;> simp [State.readSet, hi]
  have h0 := hm (s.pc + 1#16) (by simp [hset])
  have h1 := hm (s.pc + 2#16) (by simp [hset])
  exact State.immWord_of_bytes rfl h0 h1

theorem State.withMem_hlAddress {dst : Reg} (hi : s.fetchInstr = .ldRHl dst) :
    (s.withMem m).hlAddress = s.hlAddress := by
  cases hmode : s.cfg.hlAddressMode with
  | direct =>
    simp only [State.hlAddress, State.withMem_cfg, hmode]
    rfl
  | pairRead =>
    have h0 := hm s.hlConcat (by simp [State.readSet, hi, hmode])
    have h1 := hm (s.hlConcat + 1#16) (by simp [State.readSet, hi, hmode])
    have hcat : (s.withMem m).hlConcat = s.hlConcat := rfl
    simp only [State.hlAddress_eq, State.withMem_cfg, hmode, State.withMem_readByte, hcat, h0, h1]

theorem State.withMem_readByte_hlAddress {dst : Reg} (hi : s.fetchInstr = .ldRHl dst) :
    (s.withMem m).readByte (s.withMem m).hlAddress = s.readByte s.hlAddress := by
  have hdata : s.hlAddress ∈ s.readSet := by
    cases hmode : s.cfg.hlAddressMode <;> simp [State.readSet, hi, hmode, State.hlAddress]
  rw [State.withMem_hlAddress hm hi]
  exact hm _ hdata

/-- Every instruction but LD HL,nn does the same from both memories, and leaves each as it is. -/
theorem exec_withMem (hi : s.fetchInstr ≠ .ldRrNn .hl) :
    exec s.fetchInstr (s.withMem m) = mapNext (fun t => t.withMem m) (exec s.fetchInstr s) := by
  cases hf : s.fetchInstr with
  | nop | ldRR | addAR | illegal => rfl
  | ldRHl dst =>
    rw [exec_ldRHl, State.withMem_readByte_hlAddress hm hf]
    rfl
  | ldRN dst =>
    rw [exec_ldRN, State.withMem_immByte hm hf]
    rfl
  | jpNn =>
    rw [exec_jpNn, exec_jpNn, State.withMem_immWord hm (.inr hf)]
    rfl
  | ldRrNn p =>
    rw [exec_ldRrNn, exec_ldRrNn, State.withMem_immWord hm (.inl ⟨p, hf⟩)]
    cases p with
    | hl => exact absurd hf hi
    | bc | de | sp => rfl

end

/-- One word write on two memories: each byte is written alike in both or kept in both. -/
theorem State.withMem_writeWord_bytes {s : State} {m : Memory} (hs : s.mem.wf = true) (hm : m.wf = true)
    (a v b : Word) :
    ((s.withMem m).writeWord a v).readByte b = (s.writeWord a v).readByte b ∨
      (((s.withMem m).writeWord a v).readByte b = m.read b ∧ (s.writeWord a v).readByte b = s.readByte b) := by
  have hm' : (s.withMem m).mem.wf = true := hm
  rw [State.writeWord_readByte hs, State.writeWord_readByte hm']
  by_cases h1 : b = a + 1#16
  · simp [h1]
  · by_cases h0 : b = a
    · simp [h0]
    · simp [h0, h1]

/-- Executing from a memory that agrees on the bytes the step reads gives the same state but for memory, where each byte
is written alike in both runs or kept in both. -/
theorem exec_withMem_of_agree {s u : State} {m : Memory} (hs : s.mem.wf = true) (hwf : m.wf = true)
    (hm : ∀ a ∈ s.readSet, m.read a = s.readByte a) (hu : exec s.fetchInstr s = .next u) :
    ∃ m', exec s.fetchInstr (s.withMem m) = .next (u.withMem m') ∧
      ∀ a, m'.read a = u.readByte a ∨ (m'.read a = m.read a ∧ u.readByte a = s.readByte a) := by
  by_cases hi : s.fetchInstr = .ldRrNn .hl
  · refine ⟨((s.withMem m).writeWord s.hlConcat s.immWord).mem, ?_, ?_⟩
    · rw [hi, exec_ldRrNn] at hu ⊢
      rw [State.withMem_immWord hm (.inl ⟨.hl, hi⟩), ← Host.Outcome.next.inj hu]
      rfl
    · rw [hi, exec_ldRrNn] at hu
      cases hu
      exact State.withMem_writeWord_bytes hs hwf s.hlConcat s.immWord
  · refine ⟨m, ?_, fun a => .inr ⟨rfl, ?_⟩⟩
    · rw [exec_withMem hm hi, hu, mapNext]
    · rw [State.readByte, exec_mem hi hu, State.readByte]

/-- Settles O50: executing sees memory through the read set alone, and the end of a step not at all. -/
theorem stepReadsOnlyTheBytesItsFormReads : Obligations.StepReadsOnlyTheBytesItsFormReads := by
  unfold Obligations.StepReadsOnlyTheBytesItsFormReads
  intro s t m hs hwf hm ht
  obtain ⟨hr, u, hu, rfl⟩ := step_eq_next ht
  obtain ⟨m', hu', hbytes⟩ := exec_withMem_of_agree hs hwf hm hu
  refine ⟨m', ?_, ?_⟩
  · rw [← State.withMem_fetchInstr hm] at hu'
    have hadv := State.advance_commutes (fun t => t.withMem m') (fun _ => rfl) (fun _ => rfl) (fun _ => rfl)
      (fun _ _ => rfl) (fun _ _ => rfl) (fun _ _ => rfl) u
    rw [step_of_exec (s := s.withMem m) hr hu', ← hadv]
  · intro a
    rw [State.advance_readByte]
    exact hbytes a

end Sys2Proof.Machine
end

section
/-! PROOFS. Runs and their ends (40_cycle.md R103, R106, R107; 41_nop.md R120). -/

namespace Sys2Proof.Machine

/-! ## Runs that are known step by step -/

/-- A state that steps to itself is where every run from it leads. -/
theorem runsTo_self {s : State} (h : step s = .next s) (k : Nat) : runsTo s k s := by
  induction k with
  | zero => exact (runsTo_zero s s).2 rfl
  | succ k ih => exact (runsTo_succ s k s).2 ⟨s, h, ih⟩

/-- Settles O51: such a JP steps to the state it starts from. -/
theorem jumpToItselfRunsForever : Obligations.JumpToItselfRunsForever := by
  unfold Obligations.JumpToItselfRunsForever
  intro s hr hj hi hself k
  have hstep : step s = .next s := by
    rw [step_of_fetchInstr_jpNn hr hj hi, hself, State.setPc_self]
  exact ⟨s, runsTo_self hstep k, hr⟩

/-- Settles O52: 65535 - pc NOP steps lead to 0xFFFF, and one more ends the run there. -/
theorem zeroBytesRunToTermination : Obligations.ZeroBytesRunToTermination := by
  unfold Obligations.ZeroBytesRunToTermination
  intro s hr hj hz
  have hlt := s.pc.isLt
  have hrun := runsTo_terminated_of_zero_bytes (65535 - s.pc.toNat) hr hj hz (by omega)
  rwa [show 65535 - s.pc.toNat + 1 = 65536 - s.pc.toNat by omega] at hrun

/-! ## An end is final -/

theorem runsTo_functional {s t u : State} {k : Nat} (ht : runsTo s k t) (hu : runsTo s k u) : t = u :=
  Host.Outcome.next.inj (ht.symm.trans hu)

theorem runsTo_of_ended {t u : State} {k : Nat} (hend : t.status ≠ .running) (h : runsTo t k u) : u = t := by
  cases k with
  | zero => exact (runsTo_zero t u).1 h
  | succ k =>
    obtain ⟨v, hv, -⟩ := (runsTo_succ t k u).1 h
    exact absurd (step_eq_next hv).1 hend

/-- A longer run from a state goes through where a shorter one leads, so once ended it stays there. -/
theorem runsTo_ended_of_le {s t u : State} {j k : Nat} (hjk : j ≤ k) (ht : runsTo s j t) (hend : t.status ≠ .running)
    (hu : runsTo s k u) : u = t := by
  obtain ⟨d, rfl⟩ := Nat.exists_eq_add_of_le hjk
  exact runsTo_of_ended hend ((runsTo_add ht).1 hu)

theorem runsTo_ended_unique {s t u : State} {j k : Nat} (ht : runsTo s j t) (hend : t.status ≠ .running)
    (hu : runsTo s k u) (hend' : u.status ≠ .running) : t = u := by
  obtain hjk | hkj := Nat.le_total j k
  · exact (runsTo_ended_of_le hjk ht hend hu).symm
  · exact runsTo_ended_of_le hkj hu hend' ht

theorem not_neverEnds_of_ended {s t : State} {k : Nat} (ht : runsTo s k t) (hend : t.status ≠ .running) :
    ¬ NeverEnds s := by
  intro hnever
  obtain ⟨u, hu, hr⟩ := hnever k
  rw [runsTo_functional ht hu] at hend
  exact hend hr

/-! ## Every run ends or goes on -/

/-- A run that has not ended yet takes its next step. -/
theorem running_or_ended_after (s : State) (hr : s.status = .running) (k : Nat) :
    (∃ t, runsTo s k t ∧ t.status = .running) ∨ (∃ j t, runsTo s j t ∧ t.status ≠ .running) := by
  induction k with
  | zero => exact .inl ⟨s, (runsTo_zero s s).2 rfl, hr⟩
  | succ k ih =>
    obtain ⟨t, ht, htr⟩ | hend := ih
    · obtain ⟨u, hu⟩ := step_answers_next htr
      have hrun : runsTo s (k + 1) u := (runsTo_add ht).2 ((runsTo_succ t 0 u).2 ⟨u, hu, (runsTo_zero u u).2 rfl⟩)
      by_cases hur : u.status = .running
      · exact .inl ⟨u, hrun, hur⟩
      · exact .inr ⟨k + 1, u, hrun, hur⟩
    · exact .inr hend

theorem ends_or_never_ends (s : State) (hr : s.status = .running) :
    EndsWell s ∨ (∃ op a, EndsBadly s op a) ∨ NeverEnds s := by
  by_cases hend : ∃ j t, runsTo s j t ∧ t.status ≠ .running
  · obtain ⟨j, t, ht, hst⟩ := hend
    cases hs : t.status with
    | running => exact absurd hs hst
    | terminated => exact .inl ⟨j, t, ht, hs⟩
    | faulted op a => exact .inr (.inl ⟨op, a, j, t, ht, hs⟩)
  · exact .inr (.inr fun k => (running_or_ended_after s hr k).resolve_right hend)

/-! ## The ways exclude each other -/

theorem ne_running_of_terminated {t : State} (h : t.status = .terminated) : t.status ≠ .running := by
  rw [h]
  exact Status.noConfusion

theorem ne_running_of_faulted {t : State} {op : Byte} {a : Word} (h : t.status = .faulted op a) :
    t.status ≠ .running := by
  rw [h]
  exact Status.noConfusion

theorem not_endsWell_and_neverEnds {s : State} : ¬ (EndsWell s ∧ NeverEnds s) := by
  rintro ⟨⟨k, t, ht, hs⟩, hnever⟩
  exact not_neverEnds_of_ended ht (ne_running_of_terminated hs) hnever

theorem not_endsBadly_and_neverEnds {s : State} {op : Byte} {a : Word} : ¬ (EndsBadly s op a ∧ NeverEnds s) := by
  rintro ⟨⟨k, t, ht, hs⟩, hnever⟩
  exact not_neverEnds_of_ended ht (ne_running_of_faulted hs) hnever

theorem not_endsWell_and_endsBadly {s : State} {op : Byte} {a : Word} : ¬ (EndsWell s ∧ EndsBadly s op a) := by
  rintro ⟨⟨j, t, ht, hs⟩, ⟨k, u, hu, hs'⟩⟩
  have htu := runsTo_ended_unique ht (ne_running_of_terminated hs) hu (ne_running_of_faulted hs')
  rw [htu, hs'] at hs
  cases hs

theorem endsBadly_unique {s : State} {op op' : Byte} {a a' : Word} (h : EndsBadly s op a) (h' : EndsBadly s op' a') :
    op = op' ∧ a = a' := by
  obtain ⟨j, t, ht, hs⟩ := h
  obtain ⟨k, u, hu, hs'⟩ := h'
  have htu := runsTo_ended_unique ht (ne_running_of_faulted hs) hu (ne_running_of_faulted hs')
  rw [htu, hs'] at hs
  cases hs
  exact ⟨rfl, rfl⟩

/-- By the run invariant a faulted run stands at the opcode it records. -/
theorem isIllegalOpcode_of_endsBadly {s : State} {op : Byte} {a : Word} (hinv : s.Inv) (h : EndsBadly s op a) :
    isIllegalOpcode op = true := by
  obtain ⟨k, t, ht, hs⟩ := h
  have htinv : t.Inv := runsTo_keeps (fun _ _ => step_keeps_inv) hinv ht
  obtain ⟨-, -, -, hfault⟩ := htinv
  obtain ⟨-, hi⟩ := hfault op a hs
  exact ((decode_eq_illegal_iff ..).1 hi).2

/-- Settles O53: a Running state always steps, an ended one never does, and a run is determined by its start. -/
theorem runEndsInExactlyOneWay : Obligations.RunEndsInExactlyOneWay := by
  unfold Obligations.RunEndsInExactlyOneWay
  intro s hr
  exact ⟨ends_or_never_ends s hr, not_endsWell_and_neverEnds, fun _ _ => not_endsWell_and_endsBadly,
    fun _ _ => not_endsBadly_and_neverEnds, fun _ _ _ _ => endsBadly_unique, fun _ _ => isIllegalOpcode_of_endsBadly⟩

end Sys2Proof.Machine
end

section
/-! PROOFS. The disassembly text (46_disassembly.md R200 to R206). -/

namespace Sys2Proof.Machine

/-! ## The Static text -/

/-- Settles O54: each form's text is its template with the Static renderings in the operand slots; a form without such a
slot has the same text under every capability. -/
theorem staticTextOfEachForm : Obligations.StaticTextOfEachForm := by
  unfold Obligations.StaticTextOfEachForm
  refine ⟨⟨rfl, rfl, rfl, rfl, rfl, rfl, rfl, rfl⟩, ⟨rfl, rfl, rfl, rfl⟩, disassemble_nop _, ?_, disassemble_ldRR _, ?_,
    ?_, disassemble_addAR _, disassemble_jpNn _, disassemble_illegal _, fun _ => rfl, ?_, ?_, fun _ _ => rfl⟩
  · intro dst
    rw [disassemble_ldRHl, renderIndirectAddress, List.append_assoc _ [',', ' ']]
    rfl
  · intro dst
    rw [disassemble_ldRN, renderImmediateByte, List.append_assoc _ [',', ' ']]
    rfl
  · intro p
    rw [disassemble_ldRrNn, renderImmediateWord, List.append_assoc _ [',', ' ']]
    rfl
  · intro s dst src
    rw [disassemble_ldRR, disassemble_ldRR]
  · intro s src
    rw [disassemble_addAR, disassemble_addAR]

/-! ## Digits -/

/-- The sixteen digits of D14, in order. -/
def hexDigits : List Char := ['0', '1', '2', '3', '4', '5', '6', '7', '8', '9', 'a', 'b', 'c', 'd', 'e', 'f']

theorem hexDigits_getElem? {n : Nat} (h : n < 16) : hexDigits[n]? = some (hexDigit n) := hexDigit_lookup h

theorem map_some_hex2 (v : Byte) : (hex2 v).map some = [hexDigits[v.toNat / 16]?, hexDigits[v.toNat % 16]?] := by
  have hhi : v.toNat / 16 < 16 := by have := v.isLt; omega
  have hlo : v.toNat % 16 < 16 := by omega
  rw [hexDigits_getElem? hhi, hexDigits_getElem? hlo]
  rfl

theorem map_some_hex4 (v : Word) : (hex4 v).map some =
    [hexDigits[v.toNat / 4096]?, hexDigits[v.toNat / 256 % 16]?, hexDigits[v.toNat / 16 % 16]?,
      hexDigits[v.toNat % 16]?] := by
  have h1 : v.toNat / 256 / 16 = v.toNat / 4096 := by omega
  have h2 : v.toNat % 256 / 16 = v.toNat / 16 % 16 := by omega
  have h3 : v.toNat % 256 % 16 = v.toNat % 16 := by omega
  rw [hex4, List.map_append, map_some_hex2, map_some_hex2, hiByte_toNat, loByte_toNat, h1, h2, h3]
  rfl

/-! ## The Dynamic text -/

theorem disassemble_dynamic_ldRN (s : State) (dst : Reg) :
    disassemble (.dynamic s) (.ldRN dst) = ['l', 'd', ' '] ++ dst.name ++ [',', ' ', '$'] ++ hex2 s.immByte := by
  simp [renderImmediateByte]

theorem disassemble_dynamic_jpNn (s : State) :
    disassemble (.dynamic s) .jpNn = ['j', 'p', ' ', '$'] ++ hex4 s.immWord := by
  simp [renderImmediateWord]

theorem disassemble_dynamic_ldRrNn (s : State) (p : RegPair) :
    disassemble (.dynamic s) (.ldRrNn p) = ['l', 'd', ' '] ++ p.name ++ [',', ' ', '$'] ++ hex4 s.immWord := by
  simp [renderImmediateWord]

theorem disassemble_dynamic_ldRHl (s : State) (dst : Reg) :
    disassemble (.dynamic s) (.ldRHl dst) = ['l', 'd', ' '] ++ dst.name ++ [',', ' ', '@'] ++ hex4 s.hlAddress := by
  simp [renderIndirectAddress]

/-- Every pair reads back the word written to it. -/
theorem State.pairWrite_pairRead {s : State} (h : s.mem.wf = true) (p : RegPair) (v : Word) :
    (s.pairWrite p v).pairRead p = v := by
  cases p with
  | bc => exact State.pairWrite_pairRead_of_halves (p := .bc) rfl s v
  | de => exact State.pairWrite_pairRead_of_halves (p := .de) rfl s v
  | hl => exact State.pairWrite_hl_pairRead h v
  | sp => rfl

/-- Settles O55: the text peeks at the operand that executing then consumes, and shows it in the sixteen digits. -/
theorem dynamicTextShowsTheOperandExecuted : Obligations.DynamicTextShowsTheOperandExecuted := by
  unfold Obligations.DynamicTextShowsTheOperandExecuted
  refine ⟨⟨map_some_hex2, map_some_hex4⟩, fun _ => rfl, ?_, ?_, ?_, ?_⟩
  · intro s dst
    refine ⟨_, exec_ldRN dst s, ?_⟩
    rw [State.writeReg_readReg_same, disassemble_dynamic_ldRN]
  · intro s
    exact ⟨_, _, exec_jpNn s, rfl, disassemble_dynamic_jpNn s⟩
  · intro s p hwf
    refine ⟨_, exec_ldRrNn p s, ?_⟩
    rw [State.pairWrite_pairRead (s := s.setPc (s.pc + 2#16)) hwf, disassemble_dynamic_ldRrNn]
  · intro s dst hl addr
    have haddr : addr = s.hlAddress := s.hlAddress_written_out
    refine ⟨_, exec_ldRHl dst s, ?_, haddr, ?_⟩
    · rw [State.writeReg_readReg_same, haddr]
    · rw [disassemble_dynamic_ldRHl, haddr]

end Sys2Proof.Machine
end
